-- ==== Sys2Proof/Word.lean ====
section
/-! DEFINITION. The word types of the core: bytes, 16-bit words, register numbers and addresses. -/

namespace Sys2Proof

/-- The contents of a memory cell, of a general register and of a timer (spec R32, R48). -/
abbrev Byte := BitVec 8

/-- An opcode word, the program counter, the index register and a stack slot (spec R36, R39, R40, R90). -/
abbrev Word := BitVec 16

/-- The number of a general register, V0 to VF (spec R32, R94). -/
abbrev RegNum := Fin 16

/-- The 12-bit address field `nnn` of an opcode word (spec R92, R94). -/
abbrev Addr12 := BitVec 12

/-- How many cells the memory has; its addresses are 0x000 to 0xFFF (spec R8, R60). -/
abbrev memSize : Nat := 4096

/-- Where a program image is loaded and where execution starts (spec R8, R61). -/
abbrev programOrigin : Nat := 0x200

end Sys2Proof
end

