-- ==== Sys2Proof/Syntax.lean ====
section
/-! DEFINITION. The instructions: one constructor for each of the 34 rows of spec/opcode_table.json (spec R102), and the
items an assembler program is made of (spec R106, R107). -/

namespace Sys2Proof

/-- An instruction with its operands (spec R93, R94): `x` and `y` are register numbers, `nn` a byte, `nnn` a 12-bit
address, `n` a row count. The bounds of the fields are in their types. -/
inductive Instr where
  /-- 00E0 (R150) -/
  | cls
  /-- 00EE (R170) -/
  | ret
  /-- 1nnn (R172) -/
  | jp (nnn : Addr12)
  /-- 2nnn (R174) -/
  | call (nnn : Addr12)
  /-- 3xnn (R176) -/
  | seByte (x : RegNum) (nn : Byte)
  /-- 4xnn (R178) -/
  | sneByte (x : RegNum) (nn : Byte)
  /-- 5xy0 (R180) -/
  | seReg (x y : RegNum)
  /-- 6xnn (R200) -/
  | ldByte (x : RegNum) (nn : Byte)
  /-- 7xnn (R202) -/
  | addByte (x : RegNum) (nn : Byte)
  /-- 8xy0 (R206) -/
  | ldReg (x y : RegNum)
  /-- 8xy1 (R208) -/
  | orReg (x y : RegNum)
  /-- 8xy2 (R210) -/
  | andReg (x y : RegNum)
  /-- 8xy3 (R212) -/
  | xorReg (x y : RegNum)
  /-- 8xy4 (R214) -/
  | addReg (x y : RegNum)
  /-- 8xy5 (R216) -/
  | subReg (x y : RegNum)
  /-- 8xy6 (R218); `y` is used only where `SHIFT_SOURCE` is `vy` -/
  | shr (x y : RegNum)
  /-- 8xy7 (R220) -/
  | subnReg (x y : RegNum)
  /-- 8xyE (R222); `y` is used only where `SHIFT_SOURCE` is `vy` -/
  | shl (x y : RegNum)
  /-- 9xy0 (R182) -/
  | sneReg (x y : RegNum)
  /-- Annn (R240) -/
  | ldI (nnn : Addr12)
  /-- Bnnn (R184) -/
  | jpV0 (nnn : Addr12)
  /-- Cxnn (R224) -/
  | rnd (x : RegNum) (nn : Byte)
  /-- Dxyn (R152) -/
  | drw (x y : RegNum) (n : Fin 16)
  /-- Ex9E (R270) -/
  | skp (x : RegNum)
  /-- ExA1 (R272) -/
  | sknp (x : RegNum)
  /-- Fx07 (R274) -/
  | ldVxDT (x : RegNum)
  /-- Fx0A (R276) -/
  | ldVxKey (x : RegNum)
  /-- Fx15 (R278) -/
  | ldDTVx (x : RegNum)
  /-- Fx18 (R280) -/
  | ldSTVx (x : RegNum)
  /-- Fx1E (R242) -/
  | addIVx (x : RegNum)
  /-- Fx29 (R246) -/
  | ldFVx (x : RegNum)
  /-- Fx33 (R248) -/
  | ldBVx (x : RegNum)
  /-- Fx55 (R250) -/
  | ldMemVx (x : RegNum)
  /-- Fx65 (R252) -/
  | ldVxMem (x : RegNum)
  deriving DecidableEq, Repr

/-- What an assembler program is made of (spec R107): an instruction, a word given as a number, one data byte. -/
inductive Item where
  | instr (i : Instr)
  | word (w : Word)
  | byte (b : Byte)
  deriving DecidableEq, Repr

/-- How many bytes an item occupies (spec R90, R107). -/
def Item.size : Item → Nat
  | .instr _ => 2
  | .word _  => 2
  | .byte _  => 1

/-- An assembler program: its items in address order from 0x200 (spec R61, R107). -/
abbrev Program := List Item

end Sys2Proof
end

