-- ==== Sys2Proof/WellFormed.lean ====
section
/-! DEFINITION. What a well-formed program is. An instruction needs no check of its own: every field's bound is in its type
(Syntax.lean), so every term of Instr stands for a word. A program needs two: it fits, and its instructions stand where a
fetch can reach them. -/

namespace Sys2Proof

/-- How many bytes a program occupies. -/
def Program.size : Program → Nat
  | []        => 0
  | it :: its => it.size + Program.size its

/-- The image fits in 0x200 to 0xFFF: at most 3584 bytes (spec R8, R345). -/
def Program.fits (p : Program) : Bool := decide (p.size ≤ memSize - programOrigin)

/-- Every instruction from byte offset `k` on stands at an even address, where alone a fetch can reach it
(spec R37, R67; DESIGN CHOICE, log 31: the spec states no check on a program; safe, nothing in the machine uses it). -/
def Program.alignedFrom : Nat → Program → Bool
  | _, [] => true
  | k, .instr _ :: its => decide (k % 2 = 0) && Program.alignedFrom (k + 2) its
  | k, .word _ :: its  => Program.alignedFrom (k + 2) its
  | k, .byte _ :: its  => Program.alignedFrom (k + 1) its

/-- A well-formed program fits and has its instructions at even addresses. -/
def Program.wellFormed (p : Program) : Bool := p.fits && Program.alignedFrom programOrigin p

end Sys2Proof
end

