-- ==== Sys2Proof/Decode.lean ====
section
/-! DEFINITION. The decoder, total on all 65536 words (spec R95 to R103), the opcode map as mask and match rows (spec R102),
the encoder, and the image of an assembler program (spec R76, R107). -/

namespace Sys2Proof

/-- What a word decodes to (spec R103, R123): an instruction, or the rejection `Unknown(word)` by name. -/
inductive Decoded where
  | instr (i : Instr)
  | unknown (w : Word)
  deriving DecidableEq, Repr

/-- Bits 15:12, the class nibble `c` (spec R91). -/
def classField (w : Word) : BitVec 4 := w.extractLsb' 12 4

/-- Bits 11:8, the register number `x` (spec R92). -/
def xField (w : Word) : RegNum := (w.extractLsb' 8 4).toFin

/-- Bits 7:4, the register number `y` (spec R92). -/
def yField (w : Word) : RegNum := (w.extractLsb' 4 4).toFin

/-- Bits 3:0, the count `n` (spec R92). -/
def nField (w : Word) : Fin 16 := (w.extractLsb' 0 4).toFin

/-- Bits 7:0, the immediate `nn` (spec R92). -/
def nnField (w : Word) : Byte := w.extractLsb' 0 8

/-- Bits 11:0, the address `nnn` (spec R92). -/
def nnnField (w : Word) : Addr12 := w.extractLsb' 0 12

/-- Class 0: all 16 bits are matched (spec R96, D17). -/
def decodeClass0 (w : Word) : Decoded :=
  if w = 0x00E0 then .instr .cls
  else if w = 0x00EE then .instr .ret
  else .unknown w

/-- Class 8 decodes on `n` (spec R97). -/
def decodeClass8 (w : Word) : Decoded :=
  match (nField w).val with
  | 0x0 => .instr (.ldReg (xField w) (yField w))
  | 0x1 => .instr (.orReg (xField w) (yField w))
  | 0x2 => .instr (.andReg (xField w) (yField w))
  | 0x3 => .instr (.xorReg (xField w) (yField w))
  | 0x4 => .instr (.addReg (xField w) (yField w))
  | 0x5 => .instr (.subReg (xField w) (yField w))
  | 0x6 => .instr (.shr (xField w) (yField w))
  | 0x7 => .instr (.subnReg (xField w) (yField w))
  | 0xE => .instr (.shl (xField w) (yField w))
  | _   => .unknown w

/-- Class E decodes on `nn` (spec R98). -/
def decodeClassE (w : Word) : Decoded :=
  match (nnField w).toNat with
  | 0x9E => .instr (.skp (xField w))
  | 0xA1 => .instr (.sknp (xField w))
  | _    => .unknown w

/-- Class F decodes on `nn` (spec R99). -/
def decodeClassF (w : Word) : Decoded :=
  match (nnField w).toNat with
  | 0x07 => .instr (.ldVxDT (xField w))
  | 0x0A => .instr (.ldVxKey (xField w))
  | 0x15 => .instr (.ldDTVx (xField w))
  | 0x18 => .instr (.ldSTVx (xField w))
  | 0x1E => .instr (.addIVx (xField w))
  | 0x29 => .instr (.ldFVx (xField w))
  | 0x33 => .instr (.ldBVx (xField w))
  | 0x55 => .instr (.ldMemVx (xField w))
  | 0x65 => .instr (.ldVxMem (xField w))
  | _    => .unknown w

/-- The decoder: first on the class nibble, then within classes 0, 8, E and F (spec R95). Classes 5 and 9 ignore `n`
(spec R100, D27). -/
def decode (w : Word) : Decoded :=
  match (classField w).toNat with
  | 0x0 => decodeClass0 w
  | 0x1 => .instr (.jp (nnnField w))
  | 0x2 => .instr (.call (nnnField w))
  | 0x3 => .instr (.seByte (xField w) (nnField w))
  | 0x4 => .instr (.sneByte (xField w) (nnField w))
  | 0x5 => .instr (.seReg (xField w) (yField w))
  | 0x6 => .instr (.ldByte (xField w) (nnField w))
  | 0x7 => .instr (.addByte (xField w) (nnField w))
  | 0x8 => decodeClass8 w
  | 0x9 => .instr (.sneReg (xField w) (yField w))
  | 0xA => .instr (.ldI (nnnField w))
  | 0xB => .instr (.jpV0 (nnnField w))
  | 0xC => .instr (.rnd (xField w) (nnField w))
  | 0xD => .instr (.drw (xField w) (yField w) (nField w))
  | 0xE => decodeClassE w
  | _   => decodeClassF w

/-- Two bytes as a word, the first the high byte (spec R64, R90). -/
def wordOfBytes (hi lo : Byte) : Word := hi ++ lo

/-- The byte of a word that is stored at the lower address (spec R64). -/
def highByte (w : Word) : Byte := w.extractLsb' 8 8

/-- The byte of a word that is stored at the higher address (spec R64). -/
def lowByte (w : Word) : Byte := w.extractLsb' 0 8

/-- The decoder on the two bytes a fetch reads, in address order. -/
def decodeBytes (first second : Byte) : Decoded := decode (wordOfBytes first second)

/-- The instruction the decoder reads from a word that the opcode table numbers (bit 0 its least significant bit). An
instruction is one 16-bit word (spec R90), so bits above `nbits` are 0 and there are at most 16. -/
def decodeTableWord (nbits w : Nat) : Option Instr :=
  let word : Word := BitVec.ofNat 16 (w % 2 ^ nbits)
  match decodeBytes (highByte word) (lowByte word) with
  | .instr i   => some i
  | .unknown _ => none

/-! The opcode map of spec R102, row by row, to hold the decoder against. -/

/-- A row of the opcode map: the words it selects, and the instruction it stands for with the fields of a word. -/
structure OpcodeRow where
  mask  : Word
  pat   : Word
  build : Word → Instr

/-- A word matches a row when the word and the row's mask give the row's match (spec R102). -/
def OpcodeRow.selects (r : OpcodeRow) (w : Word) : Bool := w &&& r.mask == r.pat

/-- Rows of classes 0 to 7 (spec R102). -/
def opcodeRowsLow : List OpcodeRow :=
  [⟨0xFFFF, 0x00E0, fun _ => .cls⟩,
   ⟨0xFFFF, 0x00EE, fun _ => .ret⟩,
   ⟨0xF000, 0x1000, fun w => .jp (nnnField w)⟩,
   ⟨0xF000, 0x2000, fun w => .call (nnnField w)⟩,
   ⟨0xF000, 0x3000, fun w => .seByte (xField w) (nnField w)⟩,
   ⟨0xF000, 0x4000, fun w => .sneByte (xField w) (nnField w)⟩,
   ⟨0xF000, 0x5000, fun w => .seReg (xField w) (yField w)⟩,
   ⟨0xF000, 0x6000, fun w => .ldByte (xField w) (nnField w)⟩,
   ⟨0xF000, 0x7000, fun w => .addByte (xField w) (nnField w)⟩]

/-- Rows of class 8 (spec R102). -/
def opcodeRowsClass8 : List OpcodeRow :=
  [⟨0xF00F, 0x8000, fun w => .ldReg (xField w) (yField w)⟩,
   ⟨0xF00F, 0x8001, fun w => .orReg (xField w) (yField w)⟩,
   ⟨0xF00F, 0x8002, fun w => .andReg (xField w) (yField w)⟩,
   ⟨0xF00F, 0x8003, fun w => .xorReg (xField w) (yField w)⟩,
   ⟨0xF00F, 0x8004, fun w => .addReg (xField w) (yField w)⟩,
   ⟨0xF00F, 0x8005, fun w => .subReg (xField w) (yField w)⟩,
   ⟨0xF00F, 0x8006, fun w => .shr (xField w) (yField w)⟩,
   ⟨0xF00F, 0x8007, fun w => .subnReg (xField w) (yField w)⟩,
   ⟨0xF00F, 0x800E, fun w => .shl (xField w) (yField w)⟩]

/-- Rows of classes 9 to D (spec R102). -/
def opcodeRowsHigh : List OpcodeRow :=
  [⟨0xF000, 0x9000, fun w => .sneReg (xField w) (yField w)⟩,
   ⟨0xF000, 0xA000, fun w => .ldI (nnnField w)⟩,
   ⟨0xF000, 0xB000, fun w => .jpV0 (nnnField w)⟩,
   ⟨0xF000, 0xC000, fun w => .rnd (xField w) (nnField w)⟩,
   ⟨0xF000, 0xD000, fun w => .drw (xField w) (yField w) (nField w)⟩]

/-- Rows of classes E and F (spec R102). -/
def opcodeRowsEF : List OpcodeRow :=
  [⟨0xF0FF, 0xE09E, fun w => .skp (xField w)⟩,
   ⟨0xF0FF, 0xE0A1, fun w => .sknp (xField w)⟩,
   ⟨0xF0FF, 0xF007, fun w => .ldVxDT (xField w)⟩,
   ⟨0xF0FF, 0xF00A, fun w => .ldVxKey (xField w)⟩,
   ⟨0xF0FF, 0xF015, fun w => .ldDTVx (xField w)⟩,
   ⟨0xF0FF, 0xF018, fun w => .ldSTVx (xField w)⟩,
   ⟨0xF0FF, 0xF01E, fun w => .addIVx (xField w)⟩,
   ⟨0xF0FF, 0xF029, fun w => .ldFVx (xField w)⟩,
   ⟨0xF0FF, 0xF033, fun w => .ldBVx (xField w)⟩,
   ⟨0xF0FF, 0xF055, fun w => .ldMemVx (xField w)⟩,
   ⟨0xF0FF, 0xF065, fun w => .ldVxMem (xField w)⟩]

/-- The opcode map of spec R102: 34 rows. -/
def opcodeRows : List OpcodeRow := opcodeRowsLow ++ opcodeRowsClass8 ++ opcodeRowsHigh ++ opcodeRowsEF

/-! The encoder, from the same map: the match of the instruction's row and its fields in their places (spec R91, R92). -/

/-- A word of format NNN. -/
def encodeNNN (base : Nat) (nnn : Addr12) : Word := BitVec.ofNat 16 (base + nnn.toNat)

/-- A word of format XNN. -/
def encodeXNN (base : Nat) (x : RegNum) (nn : Byte) : Word := BitVec.ofNat 16 (base + x.val * 0x100 + nn.toNat)

/-- A word of format XYN; format XY is the same with the fixed or unused low nibble as `n`. -/
def encodeXYN (base : Nat) (x y n : Fin 16) : Word :=
  BitVec.ofNat 16 (base + x.val * 0x100 + y.val * 0x10 + n.val)

/-- A word of format X. -/
def encodeX (base : Nat) (x : RegNum) : Word := BitVec.ofNat 16 (base + x.val * 0x100)

/-- The word of an instruction; 5xy0 and 9xy0 are encoded with n = 0 (spec R107). -/
def encode : Instr → Word
  | .cls          => 0x00E0
  | .ret          => 0x00EE
  | .jp nnn       => encodeNNN 0x1000 nnn
  | .call nnn     => encodeNNN 0x2000 nnn
  | .seByte x nn  => encodeXNN 0x3000 x nn
  | .sneByte x nn => encodeXNN 0x4000 x nn
  | .seReg x y    => encodeXYN 0x5000 x y 0x0
  | .ldByte x nn  => encodeXNN 0x6000 x nn
  | .addByte x nn => encodeXNN 0x7000 x nn
  | .ldReg x y    => encodeXYN 0x8000 x y 0x0
  | .orReg x y    => encodeXYN 0x8000 x y 0x1
  | .andReg x y   => encodeXYN 0x8000 x y 0x2
  | .xorReg x y   => encodeXYN 0x8000 x y 0x3
  | .addReg x y   => encodeXYN 0x8000 x y 0x4
  | .subReg x y   => encodeXYN 0x8000 x y 0x5
  | .shr x y      => encodeXYN 0x8000 x y 0x6
  | .subnReg x y  => encodeXYN 0x8000 x y 0x7
  | .shl x y      => encodeXYN 0x8000 x y 0xE
  | .sneReg x y   => encodeXYN 0x9000 x y 0x0
  | .ldI nnn      => encodeNNN 0xA000 nnn
  | .jpV0 nnn     => encodeNNN 0xB000 nnn
  | .rnd x nn     => encodeXNN 0xC000 x nn
  | .drw x y n    => encodeXYN 0xD000 x y n
  | .skp x        => encodeX 0xE09E x
  | .sknp x       => encodeX 0xE0A1 x
  | .ldVxDT x     => encodeX 0xF007 x
  | .ldVxKey x    => encodeX 0xF00A x
  | .ldDTVx x     => encodeX 0xF015 x
  | .ldSTVx x     => encodeX 0xF018 x
  | .addIVx x     => encodeX 0xF01E x
  | .ldFVx x      => encodeX 0xF029 x
  | .ldBVx x      => encodeX 0xF033 x
  | .ldMemVx x    => encodeX 0xF055 x
  | .ldVxMem x    => encodeX 0xF065 x

/-- The bytes of an item in address order: a word is stored high byte first (spec R76, R107). -/
def itemBytes : Item → List Byte
  | .instr i => [highByte (encode i), lowByte (encode i)]
  | .word w  => [highByte w, lowByte w]
  | .byte b  => [b]

/-- The image of a program: the bytes loadProgram takes, with no header (spec R76). -/
def programImage (p : Program) : List Byte := p.flatMap itemBytes

end Sys2Proof
end

