-- ==== Sys2Proof/Config.lean ====
section
/-! DEFINITION. The named parameters of spec R9 and the free value of Cxnn. The values this hardware uses are Machine/Params.lean's. -/

namespace Sys2Proof

/-- `DRAW_EDGE` (spec R9, R151, D3): what Dxyn does with a pixel past the edge of the grid. -/
inductive DrawEdge where
  | wrap
  | clip
  deriving DecidableEq, Repr

/-- `ODD_PC_POLICY` (spec R9, R122, D10): what a fetch at an odd PC does. -/
inductive OddPcPolicy where
  | fault
  | fetch
  deriving DecidableEq, Repr

/-- `VF_WRITE_ORDER` (spec R9, R204, D12): which write to VF survives when a flag-writing 8xyN names x = 0xF. -/
inductive VfWriteOrder where
  | flagLast
  | flagFirst
  deriving DecidableEq, Repr

/-- `SHIFT_SOURCE` (spec R9, R218, D13): the register that 8xy6 and 8xyE shift. -/
inductive ShiftSource where
  | vx
  | vy
  deriving DecidableEq, Repr

/-- `I_ADD_MASK` (spec R9, R242, D15): whether Fx1E truncates I to 12 bits. -/
inductive IAddMask where
  | none
  | mask12
  deriving DecidableEq, Repr

/-- The named parameters of spec R9 but for `RandomByte`, which is a free value below. -/
structure Params where
  /-- `FONT`: the 80 bytes initialize writes at 0x000 to 0x04F (spec R341). -/
  font         : List Byte
  drawEdge     : DrawEdge
  oddPcPolicy  : OddPcPolicy
  vfWriteOrder : VfWriteOrder
  shiftSource  : ShiftSource
  iAddMask     : IAddMask
  deriving DecidableEq, Repr

/-- `RandomByte` (spec R9, R224, D26): the byte that the n-th Cxnn draws. A FREE VALUE: it has no body, so nothing
can be proved of any draw. The n is State's field `draws`. (DESIGN CHOICE, log 21; safe.) -/
opaque Config.randomByte : Nat → Byte

end Sys2Proof
end

