-- ==== Sys2Proof/Machine/Params.lean ====
section
/-! DEFINITION. The values of the named parameters that the spec uses for this hardware (spec R9; 92_eei_decisions.md). -/

namespace Sys2Proof.Machine

/-- The 80 bytes of the font, five for each of the glyphs 0 to F (spec R341). (PRESUMED, log 1: the spec records them
from general knowledge; unsafe.) -/
def fontBytes : List Byte :=
  [0xF0, 0x90, 0x90, 0x90, 0xF0] ++ [0x20, 0x60, 0x20, 0x20, 0x70] ++
  [0xF0, 0x10, 0xF0, 0x80, 0xF0] ++ [0xF0, 0x10, 0xF0, 0x10, 0xF0] ++
  [0x90, 0x90, 0xF0, 0x10, 0x10] ++ [0xF0, 0x80, 0xF0, 0x10, 0xF0] ++
  [0xF0, 0x80, 0xF0, 0x90, 0xF0] ++ [0xF0, 0x10, 0x20, 0x40, 0x40] ++
  [0xF0, 0x90, 0xF0, 0x90, 0xF0] ++ [0xF0, 0x90, 0xF0, 0x10, 0xF0] ++
  [0xF0, 0x90, 0xF0, 0x90, 0x90] ++ [0xE0, 0x90, 0xE0, 0x90, 0xE0] ++
  [0xF0, 0x80, 0x80, 0x80, 0xF0] ++ [0xE0, 0x90, 0x90, 0x90, 0xE0] ++
  [0xF0, 0x80, 0xF0, 0x80, 0xF0] ++ [0xF0, 0x80, 0xF0, 0x80, 0x80]

/-- The parameters of this hardware (spec R9). (DESIGN CHOICE, logs 3, 9, 10, 11, 13, 29: each value is the spec's own
decision where its source is open; unsafe.) -/
def params : Params where
  font         := fontBytes
  drawEdge     := .wrap
  oddPcPolicy  := .fault
  vfWriteOrder := .flagLast
  shiftSource  := .vx
  iAddMask     := .none

end Sys2Proof.Machine
end

