-- ==== Sys2Proof/Machine/State.lean ====
section
/-! DEFINITION. The state of the core (spec R30), the fatal causes, the signals of a step, the reasons a step can stop, and
the state after initialize (spec R52). -/

namespace Sys2Proof.Machine

/-- The causes of a fatal condition (spec R301). -/
inductive Cause where
  | capacityExceeded
  | ioFailure
  | pcOutOfRange
  | pcMisaligned
  | stackOverflow
  | stackUnderflow
  | memoryOutOfRange
  | keyIndexOutOfRange
  deriving DecidableEq, Repr

/-- Whether the core runs or a fatal condition has halted it (spec R44). -/
inductive Status where
  | running
  | halted (cause : Cause)
  deriving DecidableEq, Repr

/-- The memory: the cells that differ from the reset content, as (address, byte) pairs in canonical form
(`Memory.wf` in Machine/Ops.lean; log 32). -/
abbrev Memory := List Host.Cell

/-- The framebuffer: 32 rows of 64 one-bit pixels, row 0 the top (spec R46, R323). Bit c of row r is the pixel at column
c: `pixel` in Machine/Ops.lean reads it. -/
abbrev Framebuffer := Vector (BitVec 64) 32

/-- The signals one step emits (spec R132, R306): at most one UnknownOpcode with its word, at most one Beep. They are
outputs and no part of State (log 20). -/
structure Signals where
  unknownOpcode : Option Word
  beep          : Bool
  deriving DecidableEq, Repr

/-- Why the machine could stop with a fault. NO CONSTRUCTOR: every step of this core completes (spec R133). A fatal
condition is a next state whose status is Halted (spec R302, R131; log 6). Safe: nothing stops where the core goes on. -/
inductive Fault where
  deriving DecidableEq, Repr

/-- Why a transaction has no transition. No step is ever refused; the last four are raised by the ports of
Machine/Ports.lean only, for host calls the spec refuses. -/
inductive Refusal where
  /-- An instruction with no meaning yet: raised by exec's refused arms only, of which there are none. Safe. -/
  | notModelled (mnemonic : String)
  /-- A port other than initialize was called before the first initialize (spec R53, R326, D30). Safe: no transition. -/
  | beforeInitialize
  /-- loadProgram was called after the first step (spec R348, D23). Safe: no transition. -/
  | loadAfterFirstStep
  /-- loadProgram was called while the core is halted (spec R348, D23). Safe: no transition. -/
  | loadWhileHalted
  /-- setKey was called with an index above 15 (spec R325, D31). Safe: no transition. -/
  | noSuchKey
  deriving DecidableEq, Repr

/-- The state of the core (spec R30): every field the spec names, and the model's own `draws`. -/
structure State where
  /-- 4096 cells of 8 bits (spec R48, R60). -/
  memory   : Memory
  /-- The general registers V0 to VF (spec R32). -/
  V        : Vector Byte 16
  /-- The index register (spec R39). -/
  I        : Word
  /-- The program counter (spec R36). -/
  PC       : Word
  /-- The call stack's slots; those from SP on are stale (spec R40, R41). -/
  stack    : Vector Word 16
  /-- How many slots are active, 0 to 16 (spec R40, R49). -/
  SP       : Fin 17
  /-- The delay timer (spec R42). -/
  DT       : Byte
  /-- The sound timer (spec R43). -/
  ST       : Byte
  /-- The framebuffer (spec R46). -/
  fb       : Framebuffer
  /-- Set when the framebuffer was written, cleared by consumeDrawFlag (spec R45). -/
  drawFlag : Bool
  /-- The key levels the host last wrote, true for pressed (spec R47). -/
  keys     : Vector Bool 16
  /-- Running or Halted(cause) (spec R44). -/
  status   : Status
  /-- THE MODEL'S OWN FIELD: how many random bytes have been drawn; it selects the next free value (log 21). -/
  draws    : Nat
  deriving DecidableEq, Repr

/-- What a meaning and a step answer. -/
abbrev Result := Host.Outcome State Fault Refusal

/-- The state right after initialize (spec R52, R340). Memory lists nothing: an unlisted cell reads as the reset content,
FONT below 0x050 and 0 above. `draws` is 0 (DESIGN CHOICE, log 21). -/
def State.reset : State where
  memory   := []
  V        := Vector.replicate 16 0
  I        := 0
  PC       := 0x200
  stack    := Vector.replicate 16 0
  SP       := 0
  DT       := 0
  ST       := 0
  fb       := Vector.replicate 32 0
  drawFlag := true
  keys     := Vector.replicate 16 false
  status   := .running
  draws    := 0

end Sys2Proof.Machine
end

