-- ==== Sys2Proof/Machine/Ops.lean ====
section
/-! DEFINITION. The named operations over memory, registers, the call stack, the framebuffer, the keys and the timers, and the
entry into a fatal condition. -/

namespace Sys2Proof.Machine

/-! ## Memory (spec R60 to R70) -/

/-- What an unlisted cell holds: the reset content (spec R52, R61), FONT at 0x000 to 0x04F and 0 elsewhere. -/
def unlisted (a : Nat) : Byte := params.font.getD a 0

/-- `MemRead(a, 1)` (spec R14). -/
def Memory.read : Memory → Nat → Byte
  | [], a           => unlisted a
  | (k, b) :: m, a  => if a = k then b else Memory.read m a

/-- The cell to list for a byte at an address: none when the byte is what an unlisted cell holds. -/
def cellFor (a : Nat) (b : Byte) : Memory := if b = unlisted a then [] else [(a, b)]

/-- `MemWrite(a, 1, v)` (spec R14), keeping the list sorted and free of cells that hold their reset content. -/
def Memory.write : Memory → Nat → Byte → Memory
  | [], a, v => cellFor a v
  | (k, b) :: m, a, v =>
    if a < k then cellFor a v ++ (k, b) :: m
    else if a = k then cellFor a v ++ m
    else (k, b) :: Memory.write m a v

/-- Every cell from address `lo` on is in the memory, the addresses rise, and no cell holds its reset content. -/
def Memory.wfFrom : Nat → Memory → Bool
  | _, []            => true
  | lo, (a, b) :: m  => decide (lo ≤ a) && decide (a < memSize) && decide (b ≠ unlisted a) && Memory.wfFrom (a + 1) m

/-- The canonical form of the memory: equal contents are equal lists. -/
def Memory.wf (m : Memory) : Bool := Memory.wfFrom 0 m

/-- The `len` bytes from address `a` on, in address order (spec R66). -/
def Memory.readBytes (m : Memory) : Nat → Nat → List Byte
  | _, 0        => []
  | a, len + 1  => m.read a :: Memory.readBytes m (a + 1) len

/-- Writes bytes at ascending addresses from `a` on (spec R66). -/
def Memory.writeBytes : Memory → Nat → List Byte → Memory
  | m, _, []       => m
  | m, a, b :: bs  => Memory.writeBytes (m.write a b) (a + 1) bs

/-- Every one of the `len` addresses from `a` on is at most 0xFFF; no address needs no check (spec R68, D8). -/
def inMemory (a len : Nat) : Bool := decide (len = 0 ∨ a + len ≤ memSize)

/-! ## General registers (spec R32, R33): every read and write of one goes through these two. -/

/-- `V[x]`. -/
def readReg (s : State) (x : RegNum) : Byte := s.V[x.val]

/-- `V[x] <- b`. -/
def writeReg (x : RegNum) (b : Byte) (s : State) : State := { s with V := s.V.set x.val b }

/-- VF, the flag register (spec R33). -/
def flagReg : RegNum := 0xF

/-! ## The other registers, the framebuffer and the keys -/

/-- Sets the memory. -/
def setMemory (m : Memory) (s : State) : State := { s with memory := m }

/-- `I <- w` (spec R39). -/
def setI (w : Word) (s : State) : State := { s with I := w }

/-- `PC <- w` (spec R36). -/
def setPC (w : Word) (s : State) : State := { s with PC := w }

/-- `DT <- b` (spec R42). -/
def setDT (b : Byte) (s : State) : State := { s with DT := b }

/-- `ST <- b` (spec R43). -/
def setST (b : Byte) (s : State) : State := { s with ST := b }

/-- Sets the framebuffer and, as every write of it does, the draw flag (spec R45). -/
def setFb (fb : Framebuffer) (s : State) : State := { s with fb := fb, drawFlag := true }

/-- Moves past the instruction at PC (spec R121), or over the next one (spec R175). -/
def advancePC (s : State) : State := setPC (s.PC + 2) s

/-- A skip: over the next instruction when the condition holds (spec R175). -/
def skipIf (c : Bool) (s : State) : State := if c then advancePC s else s

/-- All 2048 cells 0 (spec R150). -/
def blankFb : Framebuffer := Vector.replicate 32 0

/-- `fb[r][c]` (spec R46). -/
def pixel (fb : Framebuffer) (r : Fin 32) (c : Fin 64) : Bool := fb[r.val].getLsbD c.val

/-- `fb[r][c] <- fb[r][c] ^ 1` (spec R152). -/
def togglePixel (fb : Framebuffer) (r : Fin 32) (c : Fin 64) : Framebuffer :=
  fb.set r.val (fb[r.val] ^^^ BitVec.twoPow 64 c.val)

/-- `keys[k]` (spec R47, R282): the level the host last wrote. -/
def keyPressed (s : State) (k : Fin 16) : Bool := s.keys[k.val]

/-- The lowest pressed key, if any is pressed (spec R276). -/
def lowestPressed (s : State) : Option (Fin 16) := (List.finRange 16).find? (keyPressed s)

/-- The next random byte, a free value (spec R224, D26; log 21). -/
def randomByte (s : State) : Byte := Config.randomByte s.draws

/-- Counts a draw, so that the next one is a value of its own. -/
def countDraw (s : State) : State := { s with draws := s.draws + 1 }

/-! ## The call stack (spec R40) -/

/-- `stack[SP] <- w; SP <- SP + 1`; none when all 16 slots are active. -/
def pushStack (w : Word) (s : State) : Option State :=
  if h : s.SP.val < 16 then
    some { s with stack := s.stack.set s.SP.val w, SP := ⟨s.SP.val + 1, by omega⟩ }
  else none

/-- `SP <- SP - 1`, with the slot then at SP, which keeps its value (spec R41); none when no slot is active. -/
def popStack (s : State) : Option (Word × State) :=
  if h : 0 < s.SP.val then
    some (s.stack[s.SP.val - 1]'(by omega), { s with SP := ⟨s.SP.val - 1, by omega⟩ })
  else none

/-! ## Fatal conditions (spec R300 to R305) -/

/-- Fatal entry: the status records the cause and no other field changes (spec R302, R303). -/
def haltWith (c : Cause) (s : State) : State := { s with status := .halted c }

/-- `raise Fatal(cause)` inside an instruction (spec R15). The answer is a next state; the step then restores what it had
changed before the instruction ran (`completeStep`). Nothing returns from a fatal condition (spec R304): only initialize,
in Machine/Ports.lean, makes a halted core run again. -/
def raiseFatal (c : Cause) (s : State) : Result := .next (haltWith c s)

/-- The code of a cause (spec R301). (DESIGN CHOICE, log 18: the numbering is the spec's own; safe, nothing reads it.) -/
def causeCode : Cause → Nat
  | .capacityExceeded   => 1
  | .ioFailure          => 2
  | .pcOutOfRange       => 3
  | .pcMisaligned       => 4
  | .stackOverflow      => 5
  | .stackUnderflow     => 6
  | .memoryOutOfRange   => 7
  | .keyIndexOutOfRange => 8

/-- The code the status port gives: 0 for Running (spec R301). -/
def statusCode : Status → Nat
  | .running  => 0
  | .halted c => causeCode c

/-- Runs an access to the `len` bytes from address I on, or raises MemoryOutOfRange before any access (spec R68). -/
def withDataAt (len : Nat) (s : State) (access : Result) : Result :=
  if inMemory s.I.toNat len then access else raiseFatal .memoryOutOfRange s

/-! ## Fetch and the end of a step (spec R120 to R129) -/

/-- What a fetch gives: the word at PC, or the fatal cause its checks raise. -/
inductive Fetched where
  | word (w : Word)
  | fatal (c : Cause)
  deriving DecidableEq, Repr

/-- The fetch: PCOutOfRange before PCMisaligned, both before a byte is read (spec R122, D29), then two bytes, the one at
the lower address the high one (spec R121, R64). -/
def fetch (p : Params) (s : State) : Fetched :=
  if 4094 < s.PC.toNat then .fatal .pcOutOfRange
  else if s.PC.toNat % 2 = 1 ∧ p.oddPcPolicy = .fault then .fatal .pcMisaligned
  else .word (wordOfBytes (s.memory.read s.PC.toNat) (s.memory.read (s.PC.toNat + 1)))

/-- A timer's countdown: never below 0 (spec R127, R128). -/
def countDown (t : Byte) : Byte := if t = 0 then 0 else t - 1

/-- Decrements both timers (spec R127, R128). -/
def tickTimers (s : State) : State := setDT (countDown s.DT) (setST (countDown s.ST) s)

/-- No signal. -/
def noSignals : Signals := ⟨none, false⟩

/-- The end of a step that began in `s0` and whose instruction left `t`. A fatal condition commits nothing but the
status and emits nothing (spec R125); otherwise both timers count down, and Beep is signalled when ST was exactly 1
(spec R127, R128). `unknown` is the word of an unknown opcode (spec R126). -/
def completeStep (s0 t : State) (unknown : Option Word) : State × Signals :=
  match t.status with
  | .running  => (tickTimers t, ⟨unknown, t.ST == 1⟩)
  | .halted c => (haltWith c s0, noSignals)

end Sys2Proof.Machine
end

