-- ==== Sys2Proof/Machine/Flags.lean ====
section
/-! DEFINITION. The flags an instruction leaves in VF (spec R33, R204) and the order of its two writes. -/

namespace Sys2Proof.Machine

/-- A flag as the value of VF: 1 or 0. -/
def flagByte (b : Bool) : Byte := if b then 1 else 0

/-- The carry of 8xy4: the sum exceeds 255 (spec R214). -/
def addCarry (a b : Byte) : Bool := decide (255 < a.toNat + b.toNat)

/-- "No borrow" of `a - b`: strictly greater, as the source writes it (spec R216, R220; log 24). -/
def noBorrow (a b : Byte) : Bool := decide (b.toNat < a.toNat)

/-- The bit 8xy6 shifts out (spec R218). -/
def shiftedOutRight (v : Byte) : Bool := v.getLsbD 0

/-- The bit 8xyE shifts out (spec R222). -/
def shiftedOutLeft (v : Byte) : Bool := v.getLsbD 7

/-- The 12-bit overflow of Fx1E for the natural sum `n` (spec R242). -/
def indexOverflow (n : Nat) : Bool := decide (0xFFF < n)

/-- `V[0xF] <- flag`. -/
def setFlag (flag : Bool) (s : State) : State := writeReg flagReg (flagByte flag) s

/-- `commit(res, flag)` (spec R204): the two writes of a flag-producing 8xyN, in the order of `VF_WRITE_ORDER`. -/
def commitFlagged (p : Params) (x : RegNum) (res : Byte) (flag : Bool) (s : State) : State :=
  match p.vfWriteOrder with
  | .flagLast  => setFlag flag (writeReg x res s)
  | .flagFirst => writeReg x res (setFlag flag s)

end Sys2Proof.Machine
end

