-- ==== Sys2Proof/Machine/Operands.lean ====
section
/-! DEFINITION. The operand forms (spec R93, R94, R256): immediates, registers, addresses and the bytes at I. -/

namespace Sys2Proof.Machine

/-- `zext_16(nnn)`: an address as a value of PC or I (spec R94). -/
def addrOperand (nnn : Addr12) : Word := nnn.setWidth 16

/-- `zext_16(v)`: a byte as a 16-bit value (spec R13). -/
def zext16 (v : Byte) : Word := v.setWidth 16

/-- The effective address `I + k`, a natural number (spec R68, R256). -/
def dataAddr (s : State) (k : Nat) : Nat := s.I.toNat + k

/-- `MemRead(I + k, 1)` (spec R256). -/
def dataByte (s : State) (k : Nat) : Byte := s.memory.read (dataAddr s k)

/-- The `len` bytes at I (spec R256). -/
def dataBytes (s : State) (len : Nat) : List Byte := s.memory.readBytes (dataAddr s 0) len

/-- Writes bytes at I, I + 1 and on (spec R66, R256). -/
def storeAtI (bs : List Byte) (s : State) : State := setMemory (s.memory.writeBytes (dataAddr s 0) bs) s

/-- The registers V0 to Vx in order (spec R250). -/
def regsUpTo (s : State) (x : RegNum) : List Byte := s.V.toList.take (x.val + 1)

/-- `for k in 0..x: V[k] <- MemRead(I + k, 1)` (spec R252). -/
def loadRegs (x : RegNum) (s : State) : State :=
  { s with V := Vector.ofFn fun k : RegNum => if k ≤ x then dataByte s k.val else readReg s k }

/-- The key a register names; none when it names no key (spec R270, D9). -/
def keyOperand (s : State) (x : RegNum) : Option (Fin 16) :=
  if h : (readReg s x).toNat < 16 then some ⟨(readReg s x).toNat, h⟩ else none

/-- The register 8xy6 and 8xyE shift (spec R218, R222, D13). -/
def shiftOperand (p : Params) (x y : RegNum) (s : State) : Byte :=
  match p.shiftSource with
  | .vx => readReg s x
  | .vy => readReg s y

/-- The value Fx1E leaves in I for the natural sum `n` (spec R242, D15). -/
def indexSum (p : Params) (n : Nat) : Word :=
  match p.iAddMask with
  | .none   => BitVec.ofNat 16 n
  | .mask12 => BitVec.ofNat 16 (n % memSize)

end Sys2Proof.Machine
end

