-- ==== Sys2Proof/Machine/Alu.lean ====
section
/-! DEFINITION. Register loads and the ALU: 6xnn, 7xnn, 8xy0 to 8xyE, Cxnn (spec R200 to R226). -/

namespace Sys2Proof.Machine

/-- 6xnn (spec R200). -/
def execLdByte (x : RegNum) (nn : Byte) (s : State) : Result := .next (writeReg x nn s)

/-- 7xnn (spec R202): no carry flag. -/
def execAddByte (x : RegNum) (nn : Byte) (s : State) : Result := .next (writeReg x (readReg s x + nn) s)

/-- 8xy0 (spec R206). -/
def execLdReg (x y : RegNum) (s : State) : Result := .next (writeReg x (readReg s y) s)

/-- 8xy1 (spec R208); VF is not written (D14, log 12). -/
def execOrReg (x y : RegNum) (s : State) : Result := .next (writeReg x (readReg s x ||| readReg s y) s)

/-- 8xy2 (spec R210); VF is not written (D14, log 12). -/
def execAndReg (x y : RegNum) (s : State) : Result := .next (writeReg x (readReg s x &&& readReg s y) s)

/-- 8xy3 (spec R212); VF is not written (D14, log 12). -/
def execXorReg (x y : RegNum) (s : State) : Result := .next (writeReg x (readReg s x ^^^ readReg s y) s)

/-- 8xy4 under given parameters (spec R214, R204). -/
def execAddRegWith (p : Params) (x y : RegNum) (s : State) : Result :=
  .next (commitFlagged p x (readReg s x + readReg s y) (addCarry (readReg s x) (readReg s y)) s)

/-- 8xy4 (spec R214). -/
def execAddReg (x y : RegNum) (s : State) : Result := execAddRegWith params x y s

/-- 8xy5 under given parameters (spec R216, R204). -/
def execSubRegWith (p : Params) (x y : RegNum) (s : State) : Result :=
  .next (commitFlagged p x (readReg s x - readReg s y) (noBorrow (readReg s x) (readReg s y)) s)

/-- 8xy5 (spec R216). -/
def execSubReg (x y : RegNum) (s : State) : Result := execSubRegWith params x y s

/-- 8xy6 under given parameters (spec R218, R204). -/
def execShrWith (p : Params) (x y : RegNum) (s : State) : Result :=
  .next (commitFlagged p x (shiftOperand p x y s >>> 1) (shiftedOutRight (shiftOperand p x y s)) s)

/-- 8xy6 (spec R218). -/
def execShr (x y : RegNum) (s : State) : Result := execShrWith params x y s

/-- 8xy7 under given parameters (spec R220, R204). -/
def execSubnRegWith (p : Params) (x y : RegNum) (s : State) : Result :=
  .next (commitFlagged p x (readReg s y - readReg s x) (noBorrow (readReg s y) (readReg s x)) s)

/-- 8xy7 (spec R220). -/
def execSubnReg (x y : RegNum) (s : State) : Result := execSubnRegWith params x y s

/-- 8xyE under given parameters (spec R222, R204). -/
def execShlWith (p : Params) (x y : RegNum) (s : State) : Result :=
  .next (commitFlagged p x (shiftOperand p x y s <<< 1) (shiftedOutLeft (shiftOperand p x y s)) s)

/-- 8xyE (spec R222). -/
def execShl (x y : RegNum) (s : State) : Result := execShlWith params x y s

/-- Cxnn with the byte `r` drawn (spec R224). -/
def execRndWith (r : Byte) (x : RegNum) (nn : Byte) (s : State) : Result := .next (writeReg x (nn &&& r) (countDraw s))

/-- Cxnn (spec R224): the draw is a free value (log 21). -/
def execRnd (x : RegNum) (nn : Byte) (s : State) : Result := execRndWith (randomByte s) x nn s

end Sys2Proof.Machine
end

