-- ==== Sys2Proof/Machine/Control.lean ====
section
/-! DEFINITION. Control flow: 00EE, 1nnn, 2nnn, 3xnn, 4xnn, 5xy0, 9xy0, Bnnn (spec R170 to R187). PC already holds the
instruction's address plus 2 (spec R36). -/

namespace Sys2Proof.Machine

/-- 00EE (spec R170). -/
def execRet (s : State) : Result :=
  match popStack s with
  | some (w, t) => .next (setPC w t)
  | none        => raiseFatal .stackUnderflow s

/-- 1nnn (spec R172). -/
def execJp (nnn : Addr12) (s : State) : Result := .next (setPC (addrOperand nnn) s)

/-- 2nnn (spec R174): the return address is the already advanced PC. -/
def execCall (nnn : Addr12) (s : State) : Result :=
  match pushStack s.PC s with
  | some t => .next (setPC (addrOperand nnn) t)
  | none   => raiseFatal .stackOverflow s

/-- 3xnn (spec R176). -/
def execSeByte (x : RegNum) (nn : Byte) (s : State) : Result := .next (skipIf (readReg s x == nn) s)

/-- 4xnn (spec R178). -/
def execSneByte (x : RegNum) (nn : Byte) (s : State) : Result := .next (skipIf (readReg s x != nn) s)

/-- 5xy0 (spec R180). -/
def execSeReg (x y : RegNum) (s : State) : Result := .next (skipIf (readReg s x == readReg s y) s)

/-- 9xy0 (spec R182). -/
def execSneReg (x y : RegNum) (s : State) : Result := .next (skipIf (readReg s x != readReg s y) s)

/-- Bnnn (spec R184): the sum is not masked (D28, log 23). -/
def execJpV0 (nnn : Addr12) (s : State) : Result := .next (setPC (zext16 (readReg s 0) + addrOperand nnn) s)

end Sys2Proof.Machine
end

