-- ==== Sys2Proof/Machine/Display.lean ====
section
/-! DEFINITION. The display instructions 00E0 and Dxyn (spec R150 to R153). -/

namespace Sys2Proof.Machine

/-- 00E0 (spec R150). -/
def execCls (s : State) : Result := .next (setFb blankFb s)

/-- `place(R, C)` (spec R151): where a pixel of the sprite falls, if it is visible. -/
def place (e : DrawEdge) (R C : Nat) : Option (Fin 32 × Fin 64) :=
  match e with
  | .wrap => some (⟨R % 32, Nat.mod_lt _ (by decide)⟩, ⟨C % 64, Nat.mod_lt _ (by decide)⟩)
  | .clip => if h : R < 32 ∧ C < 64 then some (⟨R, h.1⟩, ⟨C, h.2⟩) else none

/-- The framebuffer and whether a pixel has been unset so far, while a sprite is drawn. -/
structure Canvas where
  fb        : Framebuffer
  collision : Bool
  deriving DecidableEq, Repr

/-- Draws one bit of a sprite at row coordinate R and column coordinate C (spec R152). -/
def drawBit (e : DrawEdge) (R C : Nat) (on : Bool) (cv : Canvas) : Canvas :=
  match on, place e R C with
  | true, some (r, c) => ⟨togglePixel cv.fb r c, cv.collision || pixel cv.fb r c⟩
  | _, _              => cv

/-- Column offset `bit` of a sprite byte is bit 7 - `bit` (spec R151, D2). (PRESUMED, log 2; unsafe.) -/
def spriteBit (b : Byte) (bit : Nat) : Bool := b.getMsbD bit

/-- Draws the eight bits of one sprite byte, the leftmost first (spec R151, R152). -/
def drawRow (e : DrawEdge) (R C : Nat) (b : Byte) (cv : Canvas) : Canvas :=
  (List.range 8).foldl (fun cv bit => drawBit e R (C + bit) (spriteBit b bit) cv) cv

/-- Draws the rows of a sprite downwards from row coordinate R (spec R152). -/
def drawRows (e : DrawEdge) (C : Nat) : Nat → List Byte → Canvas → Canvas
  | _, [], cv       => cv
  | R, b :: bs, cv  => drawRows e C (R + 1) bs (drawRow e R C b cv)

/-- The canvas after Dxyn's rows, from the state before it (spec R152). -/
def drawSprite (p : Params) (x y : RegNum) (n : Fin 16) (s : State) : Canvas :=
  drawRows p.drawEdge (readReg s x).toNat (readReg s y).toNat (dataBytes s n.val) ⟨s.fb, false⟩

/-- Dxyn under given parameters (spec R152). VF is written last, 0 when no pixel was unset (D4, log 4). -/
def execDrwWith (p : Params) (x y : RegNum) (n : Fin 16) (s : State) : Result :=
  withDataAt n.val s
    (.next (setFlag (drawSprite p x y n s).collision (setFb (drawSprite p x y n s).fb s)))

/-- Dxyn (spec R152). -/
def execDrw (x y : RegNum) (n : Fin 16) (s : State) : Result := execDrwWith params x y n s

end Sys2Proof.Machine
end

