-- ==== Sys2Proof/Machine/IndexMem.lean ====
section
/-! DEFINITION. The index register and memory: Annn, Fx1E, Fx29, Fx33, Fx55, Fx65 (spec R240 to R256). -/

namespace Sys2Proof.Machine

/-- Annn (spec R240). -/
def execLdI (nnn : Addr12) (s : State) : Result := .next (setI (addrOperand nnn) s)

/-- Fx1E under given parameters (spec R242): VF is written last and always (D15, log 13). -/
def execAddIVxWith (p : Params) (x : RegNum) (s : State) : Result :=
  let sum := s.I.toNat + (readReg s x).toNat
  .next (setFlag (indexOverflow sum) (setI (indexSum p sum) s))

/-- Fx1E (spec R242). -/
def execAddIVx (x : RegNum) (s : State) : Result := execAddIVxWith params x s

/-- Fx29 (spec R246): V[x] is not reduced to a digit. -/
def execLdFVx (x : RegNum) (s : State) : Result := .next (setI (zext16 (readReg s x) * 5) s)

/-- The decimal digits of a byte, hundreds first (spec R248, D16). (PRESUMED, log 14; unsafe.) -/
def decimalDigits (v : Byte) : List Byte := [v / 100, (v / 10) % 10, v % 10]

/-- Fx33 (spec R248). -/
def execLdBVx (x : RegNum) (s : State) : Result :=
  withDataAt 3 s (.next (storeAtI (decimalDigits (readReg s x)) s))

/-- The value Fx55 and Fx65 leave in I, x + 1 (spec R254). -/
def indexAfterBlock (x : RegNum) : Word := BitVec.ofNat 16 (x.val + 1)

/-- Fx55 (spec R250). -/
def execLdMemVx (x : RegNum) (s : State) : Result :=
  withDataAt (x.val + 1) s (.next (setI (indexAfterBlock x) (storeAtI (regsUpTo s x) s)))

/-- Fx65 (spec R252). -/
def execLdVxMem (x : RegNum) (s : State) : Result :=
  withDataAt (x.val + 1) s (.next (setI (indexAfterBlock x) (loadRegs x s)))

end Sys2Proof.Machine
end

