-- ==== Sys2Proof/Machine/TimersKeys.lean ====
section
/-! DEFINITION. Keys and timers: Ex9E, ExA1, Fx07, Fx0A, Fx15, Fx18 (spec R270 to R282). The countdown at the end of the step
(spec R127, R128) is `completeStep`'s. -/

namespace Sys2Proof.Machine

/-- A skip on the level of the key V[x] names, or KeyIndexOutOfRange when it names none (spec R270, R272). -/
def skipOnKey (x : RegNum) (pressed : Bool) (s : State) : Result :=
  match keyOperand s x with
  | some k => .next (skipIf (keyPressed s k == pressed) s)
  | none   => raiseFatal .keyIndexOutOfRange s

/-- Ex9E (spec R270). -/
def execSkp (x : RegNum) (s : State) : Result := skipOnKey x true s

/-- ExA1 (spec R272). -/
def execSknp (x : RegNum) (s : State) : Result := skipOnKey x false s

/-- Fx07 (spec R274). -/
def execLdVxDT (x : RegNum) (s : State) : Result := .next (writeReg x s.DT s)

/-- Fx0A (spec R276): with no key pressed, PC goes back so that the next step runs the same instruction. -/
def execLdVxKey (x : RegNum) (s : State) : Result :=
  match lowestPressed s with
  | some k => .next (writeReg x (BitVec.ofNat 8 k.val) s)
  | none   => .next (setPC (s.PC - 2) s)

/-- Fx15 (spec R278). -/
def execLdDTVx (x : RegNum) (s : State) : Result := .next (setDT (readReg s x) s)

/-- Fx18 (spec R280). -/
def execLdSTVx (x : RegNum) (s : State) : Result := .next (setST (readReg s x) s)

end Sys2Proof.Machine
end

