-- ==== Sys2Proof/Machine/Cycle.lean ====
section
/-! DEFINITION. One step with its signals (spec R120). -/

namespace Sys2Proof.Machine

/-- What a step answers with its signals. -/
abbrev StepResult := Host.Outcome (State × Signals) Fault Refusal

/-- The end of a step after the instruction answered `r` (spec R120, R125 to R128). -/
def settle (s0 : State) (r : Result) : StepResult :=
  match r with
  | .next t    => .next (completeStep s0 t none)
  | .fault f   => .fault f
  | .refused e => .refused e

/-- Decode and execute the fetched word, in the state whose PC has moved past it (spec R121, R123, R124, R126); `run` is
what executes an instruction. -/
def runWord (run : Instr → State → Result) (s0 : State) (w : Word) : StepResult :=
  match decode w with
  | .instr i   => settle s0 (run i (advancePC s0))
  | .unknown u => .next (completeStep s0 (advancePC s0) (some u))

/-- The full step of spec R120 under given parameters: a halted core changes nothing and emits nothing (spec R131). -/
def cycleWith (p : Params) (run : Instr → State → Result) (s : State) : StepResult :=
  match s.status with
  | .halted _ => .next (s, noSignals)
  | .running  =>
    match fetch p s with
    | .fatal c => .next (haltWith c s, noSignals)
    | .word w  => runWord run s w

/-- The step of this hardware. -/
def cycle (s : State) : StepResult := cycleWith params exec s

/-- `execute(inst)` under given parameters (spec R9, R124): the instructions that read one, and exec for the rest. -/
def execWith (p : Params) (i : Instr) (s : State) : Result :=
  match i with
  | .addReg x y  => execAddRegWith p x y s
  | .subReg x y  => execSubRegWith p x y s
  | .shr x y     => execShrWith p x y s
  | .subnReg x y => execSubnRegWith p x y s
  | .shl x y     => execShlWith p x y s
  | .addIVx x    => execAddIVxWith p x s
  | .drw x y n   => execDrwWith p x y n s
  | other        => exec other s

/-- The state a step leaves. -/
def stateOf (r : StepResult) : Result :=
  match r with
  | .next q    => .next q.1
  | .fault f   => .fault f
  | .refused e => .refused e

/-- The signals a step emits (spec R132): none where it stops. -/
def signalsOf (r : StepResult) : Signals :=
  match r with
  | .next q    => q.2
  | .fault _   => noSignals
  | .refused _ => noSignals

/-- Stores a word where the next fetch reads (spec R64), when both its bytes exist. -/
def placeWord (w : Word) (s : State) : State :=
  if s.PC.toNat ≤ 4094 then
    setMemory (s.memory.writeBytes s.PC.toNat [highByte w, lowByte w]) s
  else s

end Sys2Proof.Machine
end

