-- ==== Sys2Proof/Machine/Step.lean ====
section
/-! DEFINITION. The step of the machine (spec R120), the signals it emits (spec R132), and the placing of a fetch word. -/

namespace Sys2Proof.Machine

/-- One step (spec R120). -/
def step (s : State) : Host.Outcome State Fault Refusal := stateOf (cycle s)

/-- The signals the step from `s` emits (spec R132, R306): outputs, held in no state. -/
def signals (s : State) : Signals := signalsOf (cycle s)

/-- One step under given parameters (spec R9: a model takes each one as an argument). -/
def stepWith (p : Params) (s : State) : Result := stateOf (cycleWith p (execWith p) s)

/-- `s` with a word stored where step fetches its next instruction (log 25): it stands for loadProgram. -/
def State.withFetchWord (s : State) (nbits w : Nat) : State := placeWord (BitVec.ofNat 16 (w % 2 ^ nbits)) s

end Sys2Proof.Machine
end

