-- ==== Sys2Proof/Machine/Ports.lean ====
section
/-! DEFINITION. The host interface (spec R320 to R326, R340 to R350): each port is one atomic transaction between steps. -/

namespace Sys2Proof.Machine

/-- What loadProgram is given (spec R345): the bytes, or the collaborator's report that they could not be read. -/
inductive Image where
  | bytes (bs : List Byte)
  | readFailure
  deriving DecidableEq, Repr

/-- What loadProgram returns (spec R345). -/
inductive LoadReply where
  | ok
  | capacityExceeded
  | ioFailure
  deriving DecidableEq, Repr

/-- initialize (spec R340, R342): the reset state whatever the state was. The count of draws goes on, so that draws after
it are free values of their own (log 21). -/
def resetCore (s : State) : State := { State.reset with draws := s.draws }

/-- initialize under another FONT (spec R9, R340, R341): the reset state with the given bytes at 0x000 on. -/
def resetWithFont (font : List Byte) : State := setMemory (Memory.writeBytes [] 0 font) State.reset

/-- The largest image, 3584 bytes (spec R8, R345). -/
def imageCapacity : Nat := memSize - programOrigin

/-- loadProgram (spec R345, R346, R347): IOFailure is checked before CapacityExceeded, and both write no memory. -/
def loadProgram (image : Image) (s : State) : LoadReply × State :=
  match image with
  | .readFailure => (.ioFailure, haltWith .ioFailure s)
  | .bytes bs    =>
    if imageCapacity < bs.length then (.capacityExceeded, haltWith .capacityExceeded s)
    else (.ok, setMemory (s.memory.writeBytes programOrigin bs) s)

/-- consumeDrawFlag (spec R322): reads and resets the draw flag, in any status. -/
def consumeDrawFlag (s : State) : Bool × State := (s.drawFlag, { s with drawFlag := false })

/-- setKey (spec R325) for an index that names a key. -/
def setKey (k : Fin 16) (pressed : Bool) (s : State) : State := { s with keys := s.keys.set k.val pressed }

/-- A call of a port (spec R320). The index of setKey is what the host passes, in range or not. -/
inductive PortCall where
  | init
  | loadProgram (image : Image)
  | step
  | consumeDrawFlag
  | framebuffer
  | setKey (index : Nat) (pressed : Bool)
  | status
  deriving DecidableEq, Repr

/-- What a port returns (spec R320). -/
inductive PortReply where
  | done
  | loaded (r : LoadReply)
  | stepped (sig : Signals)
  | drawFlag (b : Bool)
  | framebuffer (fb : Framebuffer)
  | status (st : Status)
  deriving DecidableEq, Repr

/-- The lifecycle around the core (spec R350): no state exists before initialize (spec R53, D30); after it the session
knows whether a step has been called, which R348 asks of loadProgram and the core's own state does not hold. -/
inductive Session where
  | beforeInitialize
  | initialized (stepCalled : Bool) (core : State)
  deriving DecidableEq, Repr

/-- What a port call answers: the session after it and the reply, or a refusal with no transition. -/
abbrev PortResult := Host.Outcome (Session × PortReply) Fault Refusal

/-- A step seen through the port: the session after it and the signals (spec R320). -/
def stepReply (r : StepResult) : PortResult :=
  match r with
  | .next q    => .next (.initialized true q.1, .stepped q.2)
  | .fault f   => .fault f
  | .refused e => .refused e

/-- loadProgram's admission (spec R348, R350, D23): before the first step and while running. -/
def loadReply (image : Image) (stepCalled : Bool) (s : State) : PortResult :=
  if stepCalled then .refused .loadAfterFirstStep
  else if s.status = .running then
    .next (.initialized false (loadProgram image s).2, .loaded (loadProgram image s).1)
  else .refused .loadWhileHalted

/-- A port call on an initialized core (spec R320 to R326). -/
def callInitialized (stepCalled : Bool) (s : State) : PortCall → PortResult
  | .init              => .next (.initialized false (resetCore s), .done)
  | .loadProgram image => loadReply image stepCalled s
  | .step              => stepReply (cycle s)
  | .consumeDrawFlag   => .next (.initialized stepCalled (consumeDrawFlag s).2, .drawFlag (consumeDrawFlag s).1)
  | .framebuffer       => .next (.initialized stepCalled s, .framebuffer s.fb)
  | .setKey k pressed  =>
    if h : k < 16 then .next (.initialized stepCalled (setKey ⟨k, h⟩ pressed s), .done)
    else .refused .noSuchKey
  | .status            => .next (.initialized stepCalled s, .status s.status)

/-- A port call (spec R320, R350): before the first initialize no other port is admitted. -/
def callPort (c : PortCall) : Session → PortResult
  | .initialized stepCalled s => callInitialized stepCalled s c
  | .beforeInitialize =>
    match c with
    | .init => .next (.initialized false State.reset, .done)
    | _           => .refused .beforeInitialize

/-- A sequence of port calls, up to the first that is refused: the session after it and the replies. -/
def callPorts : List PortCall → Session → Host.Outcome (Session × List PortReply) Fault Refusal
  | [], ses      => .next (ses, [])
  | c :: cs, ses =>
    match callPort c ses with
    | .next (ses', r) =>
      match callPorts cs ses' with
      | .next (last, rs) => .next (last, r :: rs)
      | .fault f         => .fault f
      | .refused e       => .refused e
    | .fault f   => .fault f
    | .refused e => .refused e

end Sys2Proof.Machine
end

