-- ==== Sys2Proof/Safety.lean ====
section
/-! DEFINITION. What counts as a legal state and a clean run, and which instruction may write and read what (the spec's own lists),
in the terms claims use. -/

namespace Sys2Proof.Machine

/-- The rules about every state that the spec states: the memory is canonical, PC is at most 0x10FE (spec R38, R49), and
every slot of the call stack holds an even value of at most 4096 (spec R170). SP's range is in its type. -/
structure Legal (s : State) : Prop where
  memory_wf   : s.memory.wf = true
  pc_bound    : s.PC.toNat ≤ 0x10FE
  stack_even  : ∀ k : Fin 16, s.stack[k.val].toNat % 2 = 0
  stack_bound : ∀ k : Fin 16, s.stack[k.val].toNat ≤ 4096

/-- The rules about every session: once initialized, its core's state is legal. -/
def LegalSession : Session → Prop
  | .beforeInitialize => True
  | .initialized _ s  => Legal s

/-- A step that a claim may count as progress: it ends running (spec D7) and signals no UnknownOpcode (spec I5, D17). -/
def cleanStep (s : State) : Bool :=
  match cycle s with
  | .next (t, sig) => t.status == .running && sig.unknownOpcode == none
  | _              => false

/-- A run of `n` clean steps. -/
def cleanRun : Nat → State → Bool
  | 0, _     => true
  | n + 1, s => cleanStep s &&
    match step s with
    | .next t => cleanRun n t
    | _       => false

/-- The general registers an instruction may write (spec R34). -/
def writesReg : Instr → RegNum → Bool
  | .ldByte x _, k | .addByte x _, k | .ldReg x _, k | .orReg x _, k | .andReg x _, k | .xorReg x _, k
  | .rnd x _, k | .ldVxDT x, k | .ldVxKey x, k => k == x
  | .addReg x _, k | .subReg x _, k | .shr x _, k | .subnReg x _, k | .shl x _, k => k == x || k == 0xF
  | .drw _ _ _, k | .addIVx _, k => k == 0xF
  | .ldVxMem x, k => decide (k ≤ x)
  | .cls, _ | .ret, _ | .jp _, _ | .call _, _ | .seByte _ _, _ | .sneByte _ _, _ | .seReg _ _, _ | .sneReg _ _, _
  | .ldI _, _ | .jpV0 _, _ | .skp _, _ | .sknp _, _ | .ldDTVx _, _ | .ldSTVx _, _ | .ldFVx _, _ | .ldBVx _, _
  | .ldMemVx _, _ => false

/-- The bytes of memory an instruction stores to, in a given state (spec R63): Fx33's three and Fx55's x + 1 at I. -/
def storesTo : Instr → State → Nat → Bool
  | .ldBVx _, s, a   => decide (dataAddr s 0 ≤ a ∧ a < dataAddr s 3)
  | .ldMemVx x, s, a => decide (dataAddr s 0 ≤ a ∧ a ≤ dataAddr s x.val)
  | _, _, _          => false

/-- The instructions that write I (spec R39). -/
def writesI : Instr → Bool
  | .ldI _ | .addIVx _ | .ldFVx _ | .ldMemVx _ | .ldVxMem _ => true
  | _ => false

/-- The instructions that use the call stack (spec R40). -/
def usesStack : Instr → Bool
  | .ret | .call _ => true
  | _ => false

/-- The instructions that write the framebuffer and set the draw flag (spec R45, R46). -/
def writesFb : Instr → Bool
  | .cls | .drw _ _ _ => true
  | _ => false

/-- The instructions that read the keys (spec R47, R282). -/
def readsKeys : Instr → Bool
  | .skp _ | .sknp _ | .ldVxKey _ => true
  | _ => false

/-- The instructions that assign PC beyond the fetch's increment (spec R38). -/
def writesPC : Instr → Bool
  | .ret | .jp _ | .call _ | .seByte _ _ | .sneByte _ _ | .seReg _ _ | .sneReg _ _ | .jpV0 _ | .skp _ | .sknp _
  | .ldVxKey _ => true
  | _ => false

/-- The fatal cause an instruction raises in a state, if it raises one (spec R301). -/
def fatalCause (i : Instr) (s : State) : Option Cause :=
  match i with
  | .call _          => if s.SP.val = 16 then some .stackOverflow else none
  | .ret             => if s.SP.val = 0 then some .stackUnderflow else none
  | .drw _ _ n       => if 0 < n.val ∧ 0xFFF < dataAddr s n.val - 1 then some .memoryOutOfRange else none
  | .ldBVx _         => if 0xFFF < dataAddr s 2 then some .memoryOutOfRange else none
  | .ldMemVx x       => if 0xFFF < dataAddr s x.val then some .memoryOutOfRange else none
  | .ldVxMem x       => if 0xFFF < dataAddr s x.val then some .memoryOutOfRange else none
  | .skp x           => if 0xF < (readReg s x).toNat then some .keyIndexOutOfRange else none
  | .sknp x          => if 0xF < (readReg s x).toNat then some .keyIndexOutOfRange else none
  | _                => none

end Sys2Proof.Machine
end

