-- ==== Sys2Proof/Certificates/Slice0/Obligations.lean ====
section
/-! DEFINITION. The statements for the provers, from the numbered rules of spec/. The vocabulary they share comes first; each
statement's docstring names the rules it formalises and, where a clause rests on a choice, its log entry. -/

namespace Sys2Proof.Claims

open Sys2Proof.Machine

/-- A running core whose PC passes the fetch's checks under this hardware's parameters (R122). -/
def CanFetch (s : State) : Prop := s.status = .running ∧ s.PC.toNat ≤ 4094 ∧ s.PC.toNat % 2 = 0

/-- The two bytes at PC, in address order, decode to `d`. -/
def FetchesTo (s : State) (d : Decoded) : Prop :=
  decodeBytes (s.memory.read s.PC.toNat) (s.memory.read (s.PC.toNat + 1)) = d

/-- What the end of a completed step makes of the state the instruction left: both timers count down, never below 0. -/
def Ticked (u t : State) : Prop :=
  t = { u with DT := t.DT, ST := t.ST } ∧ t.DT.toNat = u.DT.toNat - 1 ∧ t.ST.toNat = u.ST.toNat - 1

/-- Only the register `x` is written, with a value whose natural number is `v`; no other field changes. -/
def WritesOnly (x : RegNum) (v : Nat) (s t : State) : Prop :=
  (readReg t x).toNat = v ∧ (∀ k, k ≠ x → readReg t k = readReg s k) ∧ t = { s with V := t.V }

/-- The two writes of a flag-producing 8xyN (R204): the result to V[x] and the flag to VF, the later one surviving where x
is 0xF; no other register and no other field changes. -/
def WritesFlagged (order : VfWriteOrder) (x : RegNum) (res flag : Nat) (s t : State) : Prop :=
  (x ≠ 0xF → (readReg t x).toNat = res ∧ (readReg t 0xF).toNat = flag) ∧
  (x = 0xF → (readReg t 0xF).toNat = if order = .flagLast then flag else res) ∧
  (∀ k, k ≠ x → k ≠ 0xF → readReg t k = readReg s k) ∧ t = { s with V := t.V }

/-- The register 8xy6 and 8xyE shift (R218, R222, D13), as a natural number. -/
def shiftSourceValue (p : Params) (x y : RegNum) (s : State) : Nat :=
  if p.shiftSource = .vx then (readReg s x).toNat else (readReg s y).toNat

/-- A pixel with row and column coordinates R and C falls on the cell (r, c) of the grid (R151). -/
def Lands (e : DrawEdge) (R C : Nat) (r : Fin 32) (c : Fin 64) : Prop :=
  match e with
  | .wrap => R % 32 = r.val ∧ C % 64 = c.val
  | .clip => R = r.val ∧ C = c.val

/-- A set bit of the n-row sprite at I falls on the cell (r, c): bit 7 of a byte is the leftmost (R151, D2). -/
def Covers (e : DrawEdge) (x y : RegNum) (n : Nat) (s : State) (r : Fin 32) (c : Fin 64) : Prop :=
  ∃ row bit : Nat, row < n ∧ bit < 8 ∧ (s.memory.read (s.I.toNat + row)).getLsbD (7 - bit) = true ∧
    Lands e ((readReg s y).toNat + row) ((readReg s x).toNat + bit) r c

/-- What Dxyn does (R152): every covered pixel is inverted and no other changes, VF tells whether a covered pixel was set, the
draw flag is set, and nothing else changes. -/
def DrawsSprite (e : DrawEdge) (x y : RegNum) (n : Nat) (s t : State) : Prop :=
  (∀ r c, Covers e x y n s r c → pixel t.fb r c = !pixel s.fb r c) ∧
  (∀ r c, ¬ Covers e x y n s r c → pixel t.fb r c = pixel s.fb r c) ∧
  ((∃ r c, Covers e x y n s r c ∧ pixel s.fb r c = true) → readReg t 0xF = 1) ∧
  ((¬ ∃ r c, Covers e x y n s r c ∧ pixel s.fb r c = true) → readReg t 0xF = 0) ∧
  (∀ k, k ≠ 0xF → readReg t k = readReg s k) ∧ t = { s with V := t.V, fb := t.fb, drawFlag := true }

end Sys2Proof.Claims

open Sys2Proof Sys2Proof.Machine Sys2Proof.Claims

/-! ## Encoding -/

/-- Decoding the word of an instruction gives the instruction back, every operand at every value (R92, R102, R107). -/
def Obligations.DecodeEncodeRoundTrip : Prop := ∀ i : Instr, decode (encode i) = .instr i

/-- The other direction: a word that decodes to an instruction is that instruction's word, but for the low nibble that
5xyn and 9xyn ignore (R100, D27, log 22). -/
def Obligations.EncodeDecodeRoundTrip : Prop :=
  ∀ (w : Word) (i : Instr), decode w = .instr i →
    (encode i).toNat =
      if w.toNat / 0x1000 = 5 ∨ w.toNat / 0x1000 = 9 then w.toNat - w.toNat % 0x10 else w.toNat

/-- The decoder is the opcode map (R102): a word that a row's mask and match select decodes to that row's instruction, at most
one row selects a word, and a word that none selects is unknown. -/
def Obligations.DecoderIsOpcodeMap : Prop :=
  ∀ w : Word,
    (∀ r ∈ opcodeRows, r.selects w = true → decode w = .instr (r.build w)) ∧
    (opcodeRows.filter (·.selects w)).length ≤ 1 ∧
    ((∀ r ∈ opcodeRows, r.selects w = false) → decode w = .unknown w)

/-- Ten words written out from the encodings (R96 to R102; one each of vectors E-1 to E-6, E-11 and E-8 to E-10). Two rest
on the model's choices: that 0x01E0 is unknown on D17 (log 15), that 0x5AB7 is an SE on D27 (log 22). -/
def Obligations.SampleWordsDecode : Prop :=
  decode 0xD123 = .instr (.drw 1 2 3) ∧ decode 0x8AB4 = .instr (.addReg 0xA 0xB) ∧
  decode 0xF165 = .instr (.ldVxMem 1) ∧ decode 0x00E0 = .instr .cls ∧ decode 0x5AB7 = .instr (.seReg 0xA 0xB) ∧
  decode 0xB123 = .instr (.jpV0 0x123) ∧ decode 0x01E0 = .unknown 0x01E0 ∧ decode 0x8AB9 = .unknown 0x8AB9 ∧
  decode 0xE09F = .unknown 0xE09F ∧ decode 0xF066 = .unknown 0xF066

/-! ## The step -/

/-- The step runs the decoded instruction (R120, R123, R124): where the bytes at PC decode to `i`, the step is exec of `i` with
PC moved past the word; if the core still runs, both timers count down, and if a fatal condition was raised, the state is the
one the step began in but for its status (R125, D7, log 6). -/
def Obligations.StepRunsDecodedInstruction : Prop :=
  ∀ (s t : State) (i : Instr), CanFetch s → FetchesTo s (.instr i) → exec i { s with PC := s.PC + 2 } = .next t →
    (t.status = .running → ∃ u, step s = .next u ∧ Ticked t u) ∧
    (∀ c, t.status = .halted c → step s = .next { s with status := .halted c })

/-- The fetch (R121): the word is the two bytes at PC and PC + 1, the first the high byte, and PC has moved by 2 before the
word is dispatched. -/
def Obligations.FetchIsBigEndianAndAdvances : Prop :=
  ∀ s : State, CanFetch s → ∃ w : Word,
    w.toNat = (s.memory.read s.PC.toNat).toNat * 256 + (s.memory.read (s.PC.toNat + 1)).toNat ∧
    (∀ i, decode w = .instr i → cycle s = settle s (exec i { s with PC := s.PC + 2 })) ∧
    (∀ u, decode w = .unknown u → ∃ t, step s = .next t ∧ Ticked { s with PC := s.PC + 2 } t)

/-- An unknown word (R307, R126): the core goes on running, PC past the word, the timers counted down, nothing else changed,
and the step signals UnknownOpcode. That the signal carries the fetched word is the model's choice: D25, log 20. -/
def Obligations.UnknownOpcodeIsNotTerminal : Prop :=
  ∀ (s : State) (w : Word), CanFetch s → FetchesTo s (.unknown w) →
    ∃ t, step s = .next t ∧ Ticked { s with PC := s.PC + 2 } t ∧ t.status = .running ∧
      (signals s).unknownOpcode = some w ∧
      w.toNat = (s.memory.read s.PC.toNat).toNat * 256 + (s.memory.read (s.PC.toNat + 1)).toNat

/-- The fetch's checks and their order (R122): a PC above 4094 halts the core with PCOutOfRange, odd or not, and any other odd
PC with PCMisaligned; nothing else changes. So does every value of the parameters but ODD_PC_POLICY = fetch, under which
the word at an odd PC is executed like any other. The model's choice of the value and of the order: D10, D29, log 9. -/
def Obligations.BadFetchAddressHalts : Prop :=
  ∀ s : State, s.status = .running →
    (4094 < s.PC.toNat → step s = .next { s with status := .halted .pcOutOfRange }) ∧
    (s.PC.toNat ≤ 4094 → s.PC.toNat % 2 = 1 → step s = .next { s with status := .halted .pcMisaligned }) ∧
    (∀ p : Params,
      (4094 < s.PC.toNat → stepWith p s = .next { s with status := .halted .pcOutOfRange }) ∧
      (s.PC.toNat ≤ 4094 → s.PC.toNat % 2 = 1 → p.oddPcPolicy = .fault →
        stepWith p s = .next { s with status := .halted .pcMisaligned }) ∧
      (s.PC.toNat ≤ 4094 → s.PC.toNat % 2 = 1 → p.oddPcPolicy = .fetch →
        (∀ i, FetchesTo s (.instr i) → ∃ t, execWith p i { s with PC := s.PC + 2 } = .next t ∧
          (t.status = .running → ∃ u, stepWith p s = .next u ∧ Ticked t u) ∧
          (∀ c, t.status = .halted c → stepWith p s = .next { s with status := .halted c })) ∧
        (∀ w, FetchesTo s (.unknown w) → ∃ u, stepWith p s = .next u ∧ Ticked { s with PC := s.PC + 2 } u)))

/-- A halted core ignores step and signals nothing. The model's choice: D7, log 6. -/
def Obligations.HaltedCoreIsInert : Prop :=
  ∀ (s : State) (c : Cause), s.status = .halted c → step s = .next s ∧ signals s = ⟨none, false⟩

/-- A fatal condition is precise: whatever the step did, only the status differs afterwards, no signal is emitted, and the
cause is one a step can raise. The model's choice: D7, log 6. -/
def Obligations.FatalStepsArePrecise : Prop :=
  ∀ (s t : State) (c : Cause), s.status = .running → step s = .next t → t.status = .halted c →
    t = { s with status := .halted c } ∧ signals s = ⟨none, false⟩ ∧ c ≠ .capacityExceeded ∧ c ≠ .ioFailure

/-- Which instruction raises which fatal condition and when: `fatalCause` lists the spec's conditions. Where one holds, exec
answers the same state halted with it; where none holds, the core still runs. The model's choices: D5, D6, D8, D9, logs 5, 7, 8. -/
def Obligations.InstructionsHaltExactlyOnTheirCause : Prop :=
  ∀ (i : Instr) (s : State), s.status = .running →
    ∃ t, exec i s = .next t ∧
      (∀ c, fatalCause i s = some c → t = { s with status := .halted c }) ∧
      (fatalCause i s = none → t.status = .running)

/-- Every step completes (R133): it changes nothing because the core is halted, or it raises a fatal condition, or it executes
one instruction or unknown word and counts the timers down. -/
def Obligations.EveryStepCompletes : Prop :=
  ∀ s : State, ∃ t, step s = .next t ∧
    ((∃ c, s.status = .halted c ∧ t = s) ∨
     (s.status = .running ∧ ∃ c, t = { s with status := .halted c }) ∨
     (CanFetch s ∧ ∃ u, Ticked u t ∧ u.status = .running ∧
       ((∃ i, FetchesTo s (.instr i) ∧ exec i { s with PC := s.PC + 2 } = .next u) ∨
        (∃ w, FetchesTo s (.unknown w) ∧ u = { s with PC := s.PC + 2 }))))

/-- The invariant (R38, R49, R170, D10): the memory stays canonical, PC stays at most 0x10FE, and every slot of the call stack
holds an even value of at most 4096. -/
def Obligations.StepKeepsLegal : Prop := ∀ s t : State, Legal s → step s = .next t → Legal t

/-- The reset state meets the invariant (R52). -/
def Obligations.ResetIsLegal : Prop := Legal State.reset

/-- Every session that any sequence of port calls reaches from before the first initialize is legal (R320, R350). -/
def Obligations.EveryReachedSessionIsLegal : Prop :=
  ∀ (cs : List PortCall) (ses : Session) (rs : List PortReply),
    callPorts cs .beforeInitialize = .next (ses, rs) → LegalSession ses

/-! ## What changes and what does not, over all instructions -/

/-- The frame of the general registers: no instruction writes one that its list does not name (R34). -/
def Obligations.RegisterWritersAreTheListed : Prop :=
  ∀ (i : Instr) (s t : State) (k : RegNum), exec i s = .next t → writesReg i k = false → readReg t k = readReg s k

/-- The frame of memory: every byte that the instruction does not store to reads as before, and the bytes stored to are Fx33's
three and Fx55's x + 1 from I on (R63, R66). -/
def Obligations.MemoryFrame : Prop :=
  ∀ (i : Instr) (s t : State) (a : Nat), exec i s = .next t → storesTo i s a = false →
    t.memory.read a = s.memory.read a

/-- The frame of everything else: I, PC, the call stack, the framebuffer and draw flag, the timers, the keys and the model's
draw count change only by the instructions the spec lists (R38, R39, R40, R42, R43, R45, R46, R47). -/
def Obligations.OtherStateFrame : Prop :=
  ∀ (i : Instr) (s t : State), exec i s = .next t →
    (writesI i = false → t.I = s.I) ∧
    (writesPC i = false → t.PC = s.PC) ∧
    (usesStack i = false → t.stack = s.stack ∧ t.SP = s.SP) ∧
    (writesFb i = false → t.fb = s.fb ∧ t.drawFlag = s.drawFlag) ∧
    ((∀ x, i ≠ .ldDTVx x) → t.DT = s.DT) ∧
    ((∀ x, i ≠ .ldSTVx x) → t.ST = s.ST) ∧
    t.keys = s.keys ∧
    ((∀ x nn, i ≠ .rnd x nn) → t.draws = s.draws)

/-- Only Ex9E, ExA1 and Fx0A read the keys (R47, R282): with other key levels any other instruction does the same on the same
draw (log 21), and no instruction writes them. -/
def Obligations.OnlyKeyInstructionsReadKeys : Prop :=
  ∀ (i : Instr) (s t : State) (ks : Vector Bool 16), exec i s = .next t →
    t.keys = s.keys ∧ (readsKeys i = false → exec i { s with keys := ks } = .next { t with keys := ks })

/-- No instruction reads ST or the draw flag (R43, R45): from states that differ in them alone, an instruction leaves states
that differ in them alone, on the same draw (log 21). -/
def Obligations.SoundTimerAndDrawFlagAreNeverRead : Prop :=
  ∀ (i : Instr) (s t : State) (b : Byte) (d : Bool), exec i s = .next t →
    ∃ u, exec i { s with ST := b, drawFlag := d } = .next u ∧ { u with ST := t.ST, drawFlag := t.drawFlag } = t

/-- Stale stack slots are never observable (R41, R51): if two states differ only in slots from SP on, so do the states a step
leaves, on the same draw (log 21). -/
def Obligations.StaleStackSlotsAreUnobservable : Prop :=
  ∀ (s t : State) (st : Vector Word 16),
    (∀ k : Fin 16, k.val < s.SP.val → st[k.val] = s.stack[k.val]) → step s = .next t →
    ∃ st', step { s with stack := st } = .next { t with stack := st' } ∧
      ∀ k : Fin 16, k.val < t.SP.val → st'[k.val] = t.stack[k.val]

/-! ## Display -/

/-- 00E0 (R150), the word 0x00E0: every cell is 0, the draw flag is set, nothing else changes. -/
def Obligations.ClsClearsEveryPixel : Prop :=
  decode 0x00E0 = .instr .cls ∧
  ∀ s : State, ∃ t, exec .cls s = .next t ∧ (∀ r c, pixel t.fb r c = false) ∧
    t = { s with fb := t.fb, drawFlag := true }

/-- Dxyn (R152) completes wherever its sprite lies in memory, with the grid wrapping; under either value of DRAW_EDGE the
same holds with that edge. The model's choices: D2, D3, D4, D8, logs 2, 3, 4, 7. -/
def Obligations.DrwInvertsCoveredPixels : Prop :=
  ∀ (x y : RegNum) (n : Fin 16) (s : State), (n = 0 ∨ s.I.toNat + n.val ≤ 4096) →
    (∃ t, exec (.drw x y n) s = .next t ∧ DrawsSprite .wrap x y n.val s t) ∧
    (∀ p : Params, ∃ t, execWith p (.drw x y n) s = .next t ∧ DrawsSprite p.drawEdge x y n.val s t)

/-- The same sprite drawn twice at the same coordinates restores the framebuffer exactly; the second draw reports a collision
exactly if some covered pixel was clear before the first, so wherever the covered pixels were clear it does so exactly if
the sprite has a set bit (R152). The model's choices: D3, D4, logs 3, 4; log 28 says why the last premise stands. -/
def Obligations.DrawingTwiceRestores : Prop :=
  ∀ (x y : RegNum) (n : Fin 16) (s t u : State), (n = 0 ∨ s.I.toNat + n.val ≤ 4096) →
    exec (.drw x y n) s = .next t → readReg t x = readReg s x → readReg t y = readReg s y →
    exec (.drw x y n) t = .next u →
    u.fb = s.fb ∧
    (readReg u 0xF = 1 ↔ ∃ r c, Covers .wrap x y n.val s r c ∧ pixel s.fb r c = false) ∧
    ((∀ r c, Covers .wrap x y n.val s r c → pixel s.fb r c = false) →
      (readReg u 0xF = 1 ↔ ∃ row, row < n.val ∧ s.memory.read (s.I.toNat + row) ≠ 0))

/-- The spec's sentence on the second draw without that premise ("The second draw sets VF = 1 whenever the sprite has a set
bit that lands on a visible pixel", R152) does NOT hold of R152's own pseudocode: over pixels already set, the second draw
sets them again and unsets none (log 28). This statement is expected to fail. -/
def Obligations.SecondDrawAlwaysCollides : Prop :=
  ∀ (x y : RegNum) (n : Fin 16) (s t u : State), (n = 0 ∨ s.I.toNat + n.val ≤ 4096) →
    exec (.drw x y n) s = .next t → readReg t x = readReg s x → readReg t y = readReg s y →
    exec (.drw x y n) t = .next u →
    (∃ row, row < n.val ∧ s.memory.read (s.I.toNat + row) ≠ 0) → readReg u 0xF = 1

/-! ## Control flow -/

/-- 1nnn and Bnnn (R172, R184), with their words: PC is assigned nnn, or V0 plus nnn; nothing else changes. That Bnnn's sum
is not masked is the model's choice: D28, log 23. -/
def Obligations.JumpsAssignPC : Prop :=
  ∀ (nnn : Addr12) (s : State),
    (∃ t, exec (.jp nnn) s = .next t ∧ t.PC.toNat = nnn.toNat ∧ t = { s with PC := t.PC }) ∧
    (∃ t, exec (.jpV0 nnn) s = .next t ∧ t.PC.toNat = (readReg s 0).toNat + nnn.toNat ∧ t = { s with PC := t.PC }) ∧
    decode (encodeNNN 0x1000 nnn) = .instr (.jp nnn) ∧ decode (encodeNNN 0xB000 nnn) = .instr (.jpV0 nnn)

/-- 3xnn and 4xnn (R175, R176, R178), with their words: PC moves by 2 more exactly if V[x] equals, or differs from, nn. -/
def Obligations.ImmediateSkips : Prop :=
  ∀ (x : RegNum) (nn : Byte) (s : State),
    exec (.seByte x nn) s = .next { s with PC := if readReg s x = nn then s.PC + 2 else s.PC } ∧
    exec (.sneByte x nn) s = .next { s with PC := if readReg s x = nn then s.PC else s.PC + 2 } ∧
    decode (encodeXNN 0x3000 x nn) = .instr (.seByte x nn) ∧ decode (encodeXNN 0x4000 x nn) = .instr (.sneByte x nn)

/-- 5xy0 and 9xy0 (R180, R182): PC moves by 2 more exactly if V[x] equals, or differs from, V[y]; whatever the ignored low
nibble is, the word is one of these (R100, D27, log 22). -/
def Obligations.RegisterSkips : Prop :=
  ∀ (x y n : Fin 16) (s : State),
    exec (.seReg x y) s = .next { s with PC := if readReg s x = readReg s y then s.PC + 2 else s.PC } ∧
    exec (.sneReg x y) s = .next { s with PC := if readReg s x = readReg s y then s.PC else s.PC + 2 } ∧
    decode (encodeXYN 0x5000 x y n) = .instr (.seReg x y) ∧ decode (encodeXYN 0x9000 x y n) = .instr (.sneReg x y)

/-- 2nnn (R174): with a free slot, the already advanced PC is pushed and PC is nnn; with all 16 active, the core halts with
StackOverflow. The model's choice of the latter: D5, log 5. -/
def Obligations.CallPushesReturnAddress : Prop :=
  ∀ (nnn : Addr12) (s : State),
    (∀ h : s.SP.val < 16, ∃ t, exec (.call nnn) s = .next t ∧ t.stack[s.SP.val] = s.PC ∧ t.SP.val = s.SP.val + 1 ∧
      t.PC.toNat = nnn.toNat ∧ (∀ k : Fin 16, k.val ≠ s.SP.val → t.stack[k.val] = s.stack[k.val]) ∧
      t = { s with stack := t.stack, SP := t.SP, PC := t.PC }) ∧
    (s.SP.val = 16 → exec (.call nnn) s = .next { s with status := .halted .stackOverflow })

/-- 00EE (R170): the last active slot becomes PC and keeps its value (R41); with none active, the core halts with
StackUnderflow. The model's choice of the latter: D6, log 5. -/
def Obligations.ReturnPopsLastSlot : Prop :=
  ∀ s : State,
    (∀ h : 0 < s.SP.val, ∃ t, exec .ret s = .next t ∧ t.SP.val = s.SP.val - 1 ∧
      t.PC = s.stack[s.SP.val - 1]'(by have := s.SP.isLt; omega) ∧ t = { s with SP := t.SP, PC := t.PC }) ∧
    (s.SP.val = 0 → exec .ret s = .next { s with status := .halted .stackUnderflow })

/-- A call immediately followed by the return at its target (R171): after the two steps PC is just past the call, SP is as
before, and registers, memory and framebuffer are unchanged. -/
def Obligations.CallThenReturnRoundTrip : Prop :=
  ∀ (s : State) (nnn : Addr12), CanFetch s → s.SP.val < 16 → nnn.toNat ≤ 4094 → nnn.toNat % 2 = 0 →
    FetchesTo s (.instr (.call nnn)) →
    decodeBytes (s.memory.read nnn.toNat) (s.memory.read (nnn.toNat + 1)) = .instr .ret →
    ∃ t u, step s = .next t ∧ step t = .next u ∧ t.PC.toNat = nnn.toNat ∧ u.PC = s.PC + 2 ∧ u.SP = s.SP ∧
      u.V = s.V ∧ u.memory = s.memory ∧ u.fb = s.fb ∧ u.I = s.I ∧ u.status = .running

/-! ## Loads and ALU -/

/-- 6xnn, 7xnn and 8xy0 (R200, R202, R206), with their words: V[x] is nn, the sum modulo 256, or V[y]; no flag and nothing else is written. -/
def Obligations.LoadsAndImmediateAdd : Prop :=
  ∀ (x y : RegNum) (nn : Byte) (s : State),
    (∃ t, exec (.ldByte x nn) s = .next t ∧ WritesOnly x nn.toNat s t) ∧
    (∃ t, exec (.addByte x nn) s = .next t ∧ WritesOnly x (((readReg s x).toNat + nn.toNat) % 256) s t) ∧
    (∃ t, exec (.ldReg x y) s = .next t ∧ WritesOnly x (readReg s y).toNat s t) ∧
    decode (encodeXNN 0x6000 x nn) = .instr (.ldByte x nn) ∧ decode (encodeXNN 0x7000 x nn) = .instr (.addByte x nn) ∧
    decode (encodeXYN 0x8000 x y 0) = .instr (.ldReg x y)

/-- 6xnn followed by 7xnn on one register is a single 6xnn of the sum modulo 256, with no effect on VF otherwise (R203). -/
def Obligations.LoadThenAddIsOneLoad : Prop :=
  ∀ (x : RegNum) (a b : Byte) (s t : State), exec (.ldByte x a) s = .next t →
    exec (.addByte x b) t = exec (.ldByte x (BitVec.ofNat 8 ((a.toNat + b.toNat) % 256))) s

/-- 8xy1, 8xy2, 8xy3 (R208, R210, R212), bit by bit; VF is written only as V[x]. The model's choice of the latter: D14,
log 12. -/
def Obligations.LogicIsBitwise : Prop :=
  ∀ (x y : RegNum) (s : State),
    (∃ t, exec (.orReg x y) s = .next t ∧ WritesOnly x (readReg t x).toNat s t ∧
      ∀ j, (readReg t x).getLsbD j = ((readReg s x).getLsbD j || (readReg s y).getLsbD j)) ∧
    (∃ t, exec (.andReg x y) s = .next t ∧ WritesOnly x (readReg t x).toNat s t ∧
      ∀ j, (readReg t x).getLsbD j = ((readReg s x).getLsbD j && (readReg s y).getLsbD j)) ∧
    (∃ t, exec (.xorReg x y) s = .next t ∧ WritesOnly x (readReg t x).toNat s t ∧
      ∀ j, (readReg t x).getLsbD j = ((readReg s x).getLsbD j != (readReg s y).getLsbD j))

/-- 8xy4 (R214, R204), for this hardware and for either write order: the sum modulo 256, and VF 1 exactly on carry. The
model's choice of the order where x is 0xF: D12, log 10. -/
def Obligations.AddWithCarry : Prop :=
  ∀ (x y : RegNum) (s : State) (a b : Nat), a = (readReg s x).toNat → b = (readReg s y).toNat →
    (∃ t, exec (.addReg x y) s = .next t ∧
      WritesFlagged .flagLast x ((a + b) % 256) (if 255 < a + b then 1 else 0) s t) ∧
    (∀ p : Params, ∃ t, execWith p (.addReg x y) s = .next t ∧
      WritesFlagged p.vfWriteOrder x ((a + b) % 256) (if 255 < a + b then 1 else 0) s t)

/-- 8xy5 and 8xy7 (R216, R220, R204), for this hardware and for either write order: the difference modulo 256, and VF 1
exactly if the minuend is strictly greater. The model's choices: D12 and the strict test of I9, logs 10, 24. -/
def Obligations.SubtractWithNoBorrowFlag : Prop :=
  ∀ (x y : RegNum) (s : State) (a b : Nat), a = (readReg s x).toNat → b = (readReg s y).toNat →
    (∃ t, exec (.subReg x y) s = .next t ∧
      WritesFlagged .flagLast x ((a + 256 - b) % 256) (if b < a then 1 else 0) s t) ∧
    (∃ t, exec (.subnReg x y) s = .next t ∧
      WritesFlagged .flagLast x ((b + 256 - a) % 256) (if a < b then 1 else 0) s t) ∧
    (∀ p : Params,
      (∃ t, execWith p (.subReg x y) s = .next t ∧
        WritesFlagged p.vfWriteOrder x ((a + 256 - b) % 256) (if b < a then 1 else 0) s t) ∧
      (∃ t, execWith p (.subnReg x y) s = .next t ∧
        WritesFlagged p.vfWriteOrder x ((b + 256 - a) % 256) (if a < b then 1 else 0) s t))

/-- 8xy6 and 8xyE (R218, R222, R204), for this hardware and for every shift source and write order: half, or double modulo
256, and VF the bit shifted out. The model's choices: D12, D13, logs 10, 11. -/
def Obligations.ShiftsByOne : Prop :=
  ∀ (x y : RegNum) (s : State),
    (∃ t, exec (.shr x y) s = .next t ∧
      WritesFlagged .flagLast x ((readReg s x).toNat / 2) ((readReg s x).toNat % 2) s t) ∧
    (∃ t, exec (.shl x y) s = .next t ∧
      WritesFlagged .flagLast x ((readReg s x).toNat * 2 % 256) ((readReg s x).toNat / 128) s t) ∧
    (∀ (p : Params) (v : Nat), v = shiftSourceValue p x y s →
      (∃ t, execWith p (.shr x y) s = .next t ∧ WritesFlagged p.vfWriteOrder x (v / 2) (v % 2) s t) ∧
      (∃ t, execWith p (.shl x y) s = .next t ∧ WritesFlagged p.vfWriteOrder x (v * 2 % 256) (v / 128) s t))

/-- Cxnn (R224): it completes in every state, V[x] is nn masked by the next free byte, and only the model's draw count changes
besides. The same holds of the instruction for every byte r drawn, so a bit that is 0 in nn is 0 in the result. The draw
is free: D26, log 21. -/
def Obligations.RandomByteIsMasked : Prop :=
  ∀ (x : RegNum) (nn : Byte) (s : State),
    (∃ t, exec (.rnd x nn) s = .next t ∧ readReg t x = nn &&& Config.randomByte s.draws ∧
      (∀ k, k ≠ x → readReg t k = readReg s k) ∧ t = { s with V := t.V, draws := s.draws + 1 }) ∧
    (∀ r : Byte, ∃ t, execRndWith r x nn s = .next t ∧ readReg t x = nn &&& r ∧
      (∀ j, nn.getLsbD j = false → (readReg t x).getLsbD j = false) ∧
      (∀ k, k ≠ x → readReg t k = readReg s k) ∧ t = { s with V := t.V, draws := s.draws + 1 })

/-! ## Index register and memory -/

/-- Annn and Fx29 (R240, R246), with their words: I is nnn, or five times V[x] with V[x] not reduced to a digit; nothing else changes. -/
def Obligations.IndexLoads : Prop :=
  ∀ (nnn : Addr12) (x : RegNum) (s : State),
    (∃ t, exec (.ldI nnn) s = .next t ∧ t.I.toNat = nnn.toNat ∧ t = { s with I := t.I }) ∧
    (∃ t, exec (.ldFVx x) s = .next t ∧ t.I.toNat = (readReg s x).toNat * 5 ∧ t = { s with I := t.I }) ∧
    decode (encodeNNN 0xA000 nnn) = .instr (.ldI nnn) ∧ decode (encodeX 0xF029 x) = .instr (.ldFVx x)

/-- Fx1E (R242): I is the sum modulo 65536, or modulo 4096 under mask12, and VF is 1 exactly if the sum exceeds 0xFFF, also
where x is 0xF. The model's choice: D15, log 13. -/
def Obligations.IndexAddDetectsOverflow : Prop :=
  ∀ (x : RegNum) (s : State) (sum : Nat), sum = s.I.toNat + (readReg s x).toNat →
    (∃ t, exec (.addIVx x) s = .next t ∧ t.I.toNat = sum % 65536 ∧
      (readReg t 0xF).toNat = (if 0xFFF < sum then 1 else 0) ∧ (∀ k, k ≠ 0xF → readReg t k = readReg s k) ∧
      t = { s with V := t.V, I := t.I }) ∧
    (∀ p : Params, ∃ t, execWith p (.addIVx x) s = .next t ∧
      t.I.toNat = sum % (if p.iAddMask = .mask12 then 4096 else 65536) ∧
      (readReg t 0xF).toNat = (if 0xFFF < sum then 1 else 0) ∧ (∀ k, k ≠ 0xF → readReg t k = readReg s k) ∧
      t = { s with V := t.V, I := t.I })

/-- Fx33 (R248): the three decimal digits of V[x] stand at I, I + 1 and I + 2, hundreds first, and every other byte reads as
before; nothing else changes. The model's choices: D8, D16, logs 7, 14. -/
def Obligations.DecimalDigitsStored : Prop :=
  ∀ (x : RegNum) (s : State), s.memory.wf = true → s.I.toNat + 2 ≤ 0xFFF →
    ∃ t, exec (.ldBVx x) s = .next t ∧
      (t.memory.read s.I.toNat).toNat = (readReg s x).toNat / 100 ∧
      (t.memory.read (s.I.toNat + 1)).toNat = (readReg s x).toNat / 10 % 10 ∧
      (t.memory.read (s.I.toNat + 2)).toNat = (readReg s x).toNat % 10 ∧
      (∀ a, a < s.I.toNat ∨ s.I.toNat + 2 < a → t.memory.read a = s.memory.read a) ∧
      t = { s with memory := t.memory }

/-- Fx55 (R250, R254): V0 to Vx stand at I to I + x, every other byte reads as before, I is x + 1, nothing else changes; a
range that passes 0xFFF halts the core (D8, log 7). -/
def Obligations.BlockStore : Prop :=
  ∀ (x : RegNum) (s : State), s.memory.wf = true →
    (s.I.toNat + x.val ≤ 0xFFF → ∃ t, exec (.ldMemVx x) s = .next t ∧
      (∀ k : RegNum, k ≤ x → t.memory.read (s.I.toNat + k.val) = readReg s k) ∧
      (∀ a, a < s.I.toNat ∨ s.I.toNat + x.val < a → t.memory.read a = s.memory.read a) ∧
      t.I.toNat = x.val + 1 ∧ t = { s with memory := t.memory, I := t.I }) ∧
    (0xFFF < s.I.toNat + x.val → exec (.ldMemVx x) s = .next { s with status := .halted .memoryOutOfRange })

/-- Fx65 (R252, R254): V0 to Vx are the bytes at I to I + x, the other registers are unchanged, I is x + 1, nothing else
changes; a range that passes 0xFFF halts the core (D8, log 7). -/
def Obligations.BlockLoad : Prop :=
  ∀ (x : RegNum) (s : State),
    (s.I.toNat + x.val ≤ 0xFFF → ∃ t, exec (.ldVxMem x) s = .next t ∧
      (∀ k : RegNum, k ≤ x → readReg t k = s.memory.read (s.I.toNat + k.val)) ∧
      (∀ k : RegNum, x < k → readReg t k = readReg s k) ∧
      t.I.toNat = x.val + 1 ∧ t = { s with V := t.V, I := t.I }) ∧
    (0xFFF < s.I.toNat + x.val → exec (.ldVxMem x) s = .next { s with status := .halted .memoryOutOfRange })

/-- What Fx55 stored, Fx65 through the same I brings back (R250, R252; "inverse load"). -/
def Obligations.BlockLoadInvertsBlockStore : Prop :=
  ∀ (x : RegNum) (s t u w : State), s.memory.wf = true → s.I.toNat + x.val ≤ 0xFFF →
    exec (.ldMemVx x) s = .next t → u.memory = t.memory → u.I = s.I → exec (.ldVxMem x) u = .next w →
    ∀ k : RegNum, k ≤ x → readReg w k = readReg s k

/-- A store into the next instruction is fetched by the very next step (R74, R356). With I at the next instruction: after Fx55
the bytes fetched are V0 and V1, or V0 and the old second byte where x is 0; after Fx33 they are the hundreds and the tens
of V[x] (the digit order: D16, log 14). In each case the core can fetch there. -/
def Obligations.StoredCodeIsFetchedNext : Prop :=
  ∀ (s : State) (x : RegNum), CanFetch s → s.memory.wf = true → s.PC.toNat + 2 ≤ 4094 → s.I = s.PC + 2 →
    (s.I.toNat + x.val ≤ 0xFFF → FetchesTo s (.instr (.ldMemVx x)) →
      ∃ t, step s = .next t ∧ CanFetch t ∧ t.PC = s.PC + 2 ∧ t.memory.read t.PC.toNat = readReg s 0 ∧
        t.memory.read (t.PC.toNat + 1) = (if 1 ≤ x.val then readReg s 1 else s.memory.read (t.PC.toNat + 1)) ∧
        (1 ≤ x.val → FetchesTo t (decodeBytes (readReg s 0) (readReg s 1)))) ∧
    (s.I.toNat + 2 ≤ 0xFFF → FetchesTo s (.instr (.ldBVx x)) →
      ∃ t, step s = .next t ∧ CanFetch t ∧ t.PC = s.PC + 2 ∧
        (t.memory.read t.PC.toNat).toNat = (readReg s x).toNat / 100 ∧
        (t.memory.read (t.PC.toNat + 1)).toNat = (readReg s x).toNat / 10 % 10)

/-- The remark of 10_state.md that I stays within 0 to 0x10FE does NOT hold: Fx1E adds to I without bound (R242, log 27). This
statement is expected to fail. -/
def Obligations.IndexStaysWithinRemark : Prop :=
  ∀ s t : State, s.I.toNat ≤ 0x10FE → step s = .next t → t.I.toNat ≤ 0x10FE

/-- Under mask12, I never leaves the memory's range (R49, R242, D15). -/
def Obligations.MaskedIndexStaysInRange : Prop :=
  ∀ (p : Params) (s t : State), p.iAddMask = .mask12 → s.I.toNat ≤ 0xFFF → stepWith p s = .next t → t.I.toNat ≤ 0xFFF

/-! ## Keys and timers -/

/-- Ex9E and ExA1 (R270, R272): with V[x] a key, PC moves by 2 more exactly if it is pressed, or is not; with V[x] above
15 the core halts. The model's choice of the latter: D9, log 8. -/
def Obligations.KeySkips : Prop :=
  ∀ (x : RegNum) (s : State),
    (∀ k : Fin 16, (readReg s x).toNat = k.val →
      exec (.skp x) s = .next { s with PC := if s.keys[k.val] = true then s.PC + 2 else s.PC } ∧
      exec (.sknp x) s = .next { s with PC := if s.keys[k.val] = true then s.PC else s.PC + 2 }) ∧
    (15 < (readReg s x).toNat →
      exec (.skp x) s = .next { s with status := .halted .keyIndexOutOfRange } ∧
      exec (.sknp x) s = .next { s with status := .halted .keyIndexOutOfRange })

/-- Fx0A (R276), with its word: the lowest pressed key goes into V[x]; with none pressed PC goes back by 2, so that the whole step leaves
PC at the instruction and changes nothing but the timers. -/
def Obligations.KeyWait : Prop :=
  ∀ (x : RegNum) (s : State),
    (∀ k : Fin 16, s.keys[k.val] = true → (∀ j : Fin 16, j < k → s.keys[j.val] = false) →
      ∃ t, exec (.ldVxKey x) s = .next t ∧ WritesOnly x k.val s t) ∧
    ((∀ k : Fin 16, s.keys[k.val] = false) →
      exec (.ldVxKey x) s = .next { s with PC := s.PC - 2 } ∧
      (CanFetch s → FetchesTo s (.instr (.ldVxKey x)) → ∃ t, step s = .next t ∧ Ticked s t)) ∧
    decode (encodeX 0xF00A x) = .instr (.ldVxKey x)

/-- Fx07, Fx15 and Fx18 (R274, R278, R280), before the step's own countdown: V[x] is DT, DT is V[x], ST is V[x]; nothing else
changes. -/
def Obligations.TimerReadsAndWrites : Prop :=
  ∀ (x : RegNum) (s : State),
    (∃ t, exec (.ldVxDT x) s = .next t ∧ WritesOnly x s.DT.toNat s t) ∧
    exec (.ldDTVx x) s = .next { s with DT := readReg s x } ∧
    exec (.ldSTVx x) s = .next { s with ST := readReg s x }

/-- A timer that an instruction writes is counted down in the same step (R129): Fx15 and Fx18 leave V[x] less one, never below
0, and Fx18 beeps exactly if V[x] was 1; Fx07 reads DT as the step found it. -/
def Obligations.TimerWritesCountInTheirOwnStep : Prop :=
  ∀ (s : State) (x : RegNum), CanFetch s →
    (FetchesTo s (.instr (.ldDTVx x)) → ∃ t, step s = .next t ∧ t.DT.toNat = (readReg s x).toNat - 1) ∧
    (FetchesTo s (.instr (.ldSTVx x)) → ∃ t, step s = .next t ∧ t.ST.toNat = (readReg s x).toNat - 1 ∧
      ((signals s).beep = true ↔ readReg s x = 1)) ∧
    (FetchesTo s (.instr (.ldVxDT x)) → ∃ t, step s = .next t ∧ readReg t x = s.DT ∧ t.DT.toNat = s.DT.toNat - 1)

/-- The countdown (R127, R128): exactly once in every completed step, after the instruction, and Beep exactly if ST was 1
then. `u` is the state the instruction or the unknown word left. -/
def Obligations.TimersCountDownOnceAStep : Prop :=
  ∀ (s u : State), CanFetch s → u.status = .running →
    ((∃ i, FetchesTo s (.instr i) ∧ exec i { s with PC := s.PC + 2 } = .next u) ∨
     (∃ w, FetchesTo s (.unknown w) ∧ u = { s with PC := s.PC + 2 })) →
    ∃ t, step s = .next t ∧
      t.DT.toNat = (if 0 < u.DT.toNat then u.DT.toNat - 1 else 0) ∧
      t.ST.toNat = (if 0 < u.ST.toNat then u.ST.toNat - 1 else 0) ∧
      ((signals s).beep = true ↔ u.ST.toNat = 1)

/-- No other instruction disturbs a timer (R42, R43, R127, R128): a step that ends running and whose word is not Fx15 leaves
DT one less, and one whose word is not Fx18 leaves ST one less and beeps exactly if ST was 1. -/
def Obligations.TimersRunUndisturbed : Prop :=
  ∀ (s t : State), s.status = .running → step s = .next t → t.status = .running →
    ((∀ x, ¬ FetchesTo s (.instr (.ldDTVx x))) → t.DT.toNat = s.DT.toNat - 1) ∧
    ((∀ x, ¬ FetchesTo s (.instr (.ldSTVx x))) → t.ST.toNat = s.ST.toNat - 1 ∧
      ((signals s).beep = true ↔ s.ST = 1))

/-! ## The host's ports -/

/-- initialize (R340, R342) from any session: FONT at 0x000 to 0x04F and 0 elsewhere, PC at 0x200, the draw flag set, the
status Running and every other field 0, with the memory canonical. -/
def Obligations.InitializeResetsEverything : Prop :=
  ∀ ses : Session, ∃ t, callPort .init ses = .next (.initialized false t, .done) ∧
    (∀ a, a < 80 → t.memory.read a = params.font.getD a 0) ∧ (∀ a, 80 ≤ a → t.memory.read a = 0) ∧
    t.memory.wf = true ∧ (∀ k, readReg t k = 0) ∧ (∀ k : Fin 16, t.stack[k.val] = 0 ∧ t.keys[k.val] = false) ∧
    t.I = 0 ∧ t.SP = 0 ∧ t.DT = 0 ∧ t.ST = 0 ∧ (∀ r c, pixel t.fb r c = false) ∧
    t.PC = 0x200 ∧ t.drawFlag = true ∧ t.status = .running

/-- initialize under any 80 bytes of FONT (R340, R341): the memory holds them at 0x000 to 0x04F and 0 elsewhere, in canonical
form. -/
def Obligations.ResetHoldsAnyFont : Prop :=
  ∀ font : List Byte, font.length = 80 →
    (resetWithFont font).memory.wf = true ∧
    (∀ a, a < 80 → (resetWithFont font).memory.read a = font.getD a 0) ∧
    (∀ a, 80 ≤ a → (resetWithFont font).memory.read a = 0) ∧
    resetWithFont font = { State.reset with memory := (resetWithFont font).memory }

/-- loadProgram (R345, R346, R347) on a session that may load: up to 3584 bytes are stored from 0x200 on and every other byte
and field is as before; more are turned away with CapacityExceeded, and a read failure with IOFailure, the core halted
and nothing else changed. The model's choice of the halts: D7, D23, logs 6, 19. -/
def Obligations.LoadProgramStoresOrHalts : Prop :=
  ∀ (s : State), s.memory.wf = true → s.status = .running →
    (∀ bs : List Byte, bs.length ≤ 3584 →
      ∃ t, callPort (.loadProgram (.bytes bs)) (.initialized false s) = .next (.initialized false t, .loaded .ok) ∧
        (∀ (k : Nat) (h : k < bs.length), t.memory.read (0x200 + k) = bs[k]) ∧
        (∀ a, a < 0x200 ∨ 0x200 + bs.length ≤ a → t.memory.read a = s.memory.read a) ∧
        t = { s with memory := t.memory } ∧ t.memory.wf = true) ∧
    (∀ bs : List Byte, 3584 < bs.length →
      callPort (.loadProgram (.bytes bs)) (.initialized false s) =
        .next (.initialized false { s with status := .halted .capacityExceeded }, .loaded .capacityExceeded)) ∧
    callPort (.loadProgram .readFailure) (.initialized false s) =
      .next (.initialized false { s with status := .halted .ioFailure }, .loaded .ioFailure)

/-- consumeDrawFlag (R322) returns the draw flag and clears it, in any status; framebuffer and status (R323, R324) return what
they name and change nothing. -/
def Obligations.ReadPorts : Prop :=
  ∀ (b : Bool) (s : State),
    callPort .consumeDrawFlag (.initialized b s) =
      .next (.initialized b { s with drawFlag := false }, .drawFlag s.drawFlag) ∧
    callPort .framebuffer (.initialized b s) = .next (.initialized b s, .framebuffer s.fb) ∧
    callPort .status (.initialized b s) = .next (.initialized b s, .status s.status)

/-- The draw flag's life (R45, R322, R343): once consumed, it stays clear through a step that executes neither 00E0 nor
Dxyn, and no step clears it. -/
def Obligations.DrawFlagIsSetOnlyByDrawing : Prop :=
  ∀ s t : State, step s = .next t →
    (s.drawFlag = true → t.drawFlag = true) ∧
    (s.drawFlag = false → t.drawFlag = true →
      ∃ i, FetchesTo s (.instr i) ∧ writesFb i = true)

/-- setKey (R325): with an index 0 to 15 it sets that key's level alone, in any status; any other index is refused. The
model's choice of the refusal: D31, log 19. -/
def Obligations.SetKeySetsOneLevel : Prop :=
  ∀ (b pressed : Bool) (s : State) (k : Nat),
    (∀ h : k < 16, ∃ t, callPort (.setKey k pressed) (.initialized b s) = .next (.initialized b t, .done) ∧
      t.keys[k] = pressed ∧ (∀ j : Fin 16, j.val ≠ k → t.keys[j.val] = s.keys[j.val]) ∧
      t = { s with keys := t.keys }) ∧
    (16 ≤ k → callPort (.setKey k pressed) (.initialized b s) = .refused .noSuchKey)

/-- The lifecycle (R326, R348, R350): before initialize no other port is admitted, and loadProgram is refused after the first
step and while the core is halted; a step is always admitted after initialize, in any status, and it is `step` with its signals. The
model's choices: D23, D30, log 19. -/
def Obligations.LifecycleRefusals : Prop :=
  (∀ c : PortCall, c ≠ .init → callPort c .beforeInitialize = .refused .beforeInitialize) ∧
  (∀ (image : Image) (s : State),
    callPort (.loadProgram image) (.initialized true s) = .refused .loadAfterFirstStep) ∧
  (∀ (image : Image) (s : State) (c : Cause), s.status = .halted c →
    callPort (.loadProgram image) (.initialized false s) = .refused .loadWhileHalted) ∧
  (∀ (b : Bool) (s : State), ∃ s', step s = .next s' ∧
    callPort .step (.initialized b s) = .next (.initialized true s', .stepped (signals s)))
end

