-- ==== Sys2Proof/Laws/Decode.lean ====
section
/-! SUPPORT. The fields of an encoded word, format by format, and the bytes of a word. -/

namespace Sys2Proof

theorem classField_toNat (w : Word) : (classField w).toNat = w.toNat / 4096 := by
  have := w.isLt
  simp [classField, Nat.shiftRight_eq_div_pow]
  omega

theorem xField_val (w : Word) : (xField w).val = w.toNat / 256 % 16 := by
  simp [xField, Nat.shiftRight_eq_div_pow]

theorem yField_val (w : Word) : (yField w).val = w.toNat / 16 % 16 := by
  simp [yField, Nat.shiftRight_eq_div_pow]

theorem nField_val (w : Word) : (nField w).val = w.toNat % 16 := by
  simp [nField]

theorem nnField_toNat (w : Word) : (nnField w).toNat = w.toNat % 256 := by
  simp [nnField]

theorem nnnField_toNat (w : Word) : (nnnField w).toNat = w.toNat % 4096 := by
  simp [nnnField]

theorem encodeNNN_toNat {base : Nat} (nnn : Addr12) (h : base ≤ 0xF000) :
    (encodeNNN base nnn).toNat = base + nnn.toNat := by
  have := nnn.isLt
  simp [encodeNNN]
  omega

theorem encodeXNN_toNat {base : Nat} (x : RegNum) (nn : Byte) (h : base ≤ 0xF000) :
    (encodeXNN base x nn).toNat = base + x.val * 0x100 + nn.toNat := by
  have := nn.isLt
  simp [encodeXNN]
  omega

theorem encodeXYN_toNat {base : Nat} (x y n : Fin 16) (h : base ≤ 0xF000) :
    (encodeXYN base x y n).toNat = base + x.val * 0x100 + y.val * 0x10 + n.val := by
  simp [encodeXYN]
  omega

theorem encodeX_toNat {base : Nat} (x : RegNum) (h : base ≤ 0xF0FF) :
    (encodeX base x).toNat = base + x.val * 0x100 := by
  simp [encodeX]
  omega

/-- The two bytes of a word put it together again. -/
theorem wordOfBytes_high_low (w : Word) : wordOfBytes (highByte w) (lowByte w) = w := by
  apply BitVec.eq_of_toNat_eq
  have := w.isLt
  have e : (wordOfBytes (highByte w) (lowByte w)).toNat = (highByte w).toNat * 256 + (lowByte w).toNat := by
    unfold wordOfBytes
    rw [BitVec.toNat_append]
    rw [← Nat.shiftLeft_add_eq_or_of_lt (lowByte w).isLt, Nat.shiftLeft_eq]
  rw [e]
  simp [highByte, lowByte, Nat.shiftRight_eq_div_pow]
  omega

theorem wordOfBytes_toNat (hi lo : Byte) : (wordOfBytes hi lo).toNat = hi.toNat * 256 + lo.toNat := by
  unfold wordOfBytes
  rw [BitVec.toNat_append, ← Nat.shiftLeft_add_eq_or_of_lt lo.isLt, Nat.shiftLeft_eq]

end Sys2Proof
end

