-- ==== Sys2Proof/Laws/State.lean ====
section
/-! SUPPORT. What every update of the state does to every field, one lemma each, so that no proof unfolds an update. -/

namespace Sys2Proof.Machine

variable (s : State)

/-! `writeReg` -/

@[simp] theorem writeReg_memory (x : RegNum) (b : Byte) : (writeReg x b s).memory = s.memory := rfl
@[simp] theorem writeReg_V (x : RegNum) (b : Byte) : (writeReg x b s).V = s.V.set x.val b := rfl
@[simp] theorem writeReg_I (x : RegNum) (b : Byte) : (writeReg x b s).I = s.I := rfl
@[simp] theorem writeReg_PC (x : RegNum) (b : Byte) : (writeReg x b s).PC = s.PC := rfl
@[simp] theorem writeReg_stack (x : RegNum) (b : Byte) : (writeReg x b s).stack = s.stack := rfl
@[simp] theorem writeReg_SP (x : RegNum) (b : Byte) : (writeReg x b s).SP = s.SP := rfl
@[simp] theorem writeReg_DT (x : RegNum) (b : Byte) : (writeReg x b s).DT = s.DT := rfl
@[simp] theorem writeReg_ST (x : RegNum) (b : Byte) : (writeReg x b s).ST = s.ST := rfl
@[simp] theorem writeReg_fb (x : RegNum) (b : Byte) : (writeReg x b s).fb = s.fb := rfl
@[simp] theorem writeReg_drawFlag (x : RegNum) (b : Byte) : (writeReg x b s).drawFlag = s.drawFlag := rfl
@[simp] theorem writeReg_keys (x : RegNum) (b : Byte) : (writeReg x b s).keys = s.keys := rfl
@[simp] theorem writeReg_status (x : RegNum) (b : Byte) : (writeReg x b s).status = s.status := rfl
@[simp] theorem writeReg_draws (x : RegNum) (b : Byte) : (writeReg x b s).draws = s.draws := rfl

/-! `setMemory` -/

@[simp] theorem setMemory_memory (m : Memory) : (setMemory m s).memory = m := rfl
@[simp] theorem setMemory_V (m : Memory) : (setMemory m s).V = s.V := rfl
@[simp] theorem setMemory_I (m : Memory) : (setMemory m s).I = s.I := rfl
@[simp] theorem setMemory_PC (m : Memory) : (setMemory m s).PC = s.PC := rfl
@[simp] theorem setMemory_stack (m : Memory) : (setMemory m s).stack = s.stack := rfl
@[simp] theorem setMemory_SP (m : Memory) : (setMemory m s).SP = s.SP := rfl
@[simp] theorem setMemory_DT (m : Memory) : (setMemory m s).DT = s.DT := rfl
@[simp] theorem setMemory_ST (m : Memory) : (setMemory m s).ST = s.ST := rfl
@[simp] theorem setMemory_fb (m : Memory) : (setMemory m s).fb = s.fb := rfl
@[simp] theorem setMemory_drawFlag (m : Memory) : (setMemory m s).drawFlag = s.drawFlag := rfl
@[simp] theorem setMemory_keys (m : Memory) : (setMemory m s).keys = s.keys := rfl
@[simp] theorem setMemory_status (m : Memory) : (setMemory m s).status = s.status := rfl
@[simp] theorem setMemory_draws (m : Memory) : (setMemory m s).draws = s.draws := rfl

/-! `setI` -/

@[simp] theorem setI_memory (w : Word) : (setI w s).memory = s.memory := rfl
@[simp] theorem setI_V (w : Word) : (setI w s).V = s.V := rfl
@[simp] theorem setI_I (w : Word) : (setI w s).I = w := rfl
@[simp] theorem setI_PC (w : Word) : (setI w s).PC = s.PC := rfl
@[simp] theorem setI_stack (w : Word) : (setI w s).stack = s.stack := rfl
@[simp] theorem setI_SP (w : Word) : (setI w s).SP = s.SP := rfl
@[simp] theorem setI_DT (w : Word) : (setI w s).DT = s.DT := rfl
@[simp] theorem setI_ST (w : Word) : (setI w s).ST = s.ST := rfl
@[simp] theorem setI_fb (w : Word) : (setI w s).fb = s.fb := rfl
@[simp] theorem setI_drawFlag (w : Word) : (setI w s).drawFlag = s.drawFlag := rfl
@[simp] theorem setI_keys (w : Word) : (setI w s).keys = s.keys := rfl
@[simp] theorem setI_status (w : Word) : (setI w s).status = s.status := rfl
@[simp] theorem setI_draws (w : Word) : (setI w s).draws = s.draws := rfl

/-! `setPC` -/

@[simp] theorem setPC_memory (w : Word) : (setPC w s).memory = s.memory := rfl
@[simp] theorem setPC_V (w : Word) : (setPC w s).V = s.V := rfl
@[simp] theorem setPC_I (w : Word) : (setPC w s).I = s.I := rfl
@[simp] theorem setPC_PC (w : Word) : (setPC w s).PC = w := rfl
@[simp] theorem setPC_stack (w : Word) : (setPC w s).stack = s.stack := rfl
@[simp] theorem setPC_SP (w : Word) : (setPC w s).SP = s.SP := rfl
@[simp] theorem setPC_DT (w : Word) : (setPC w s).DT = s.DT := rfl
@[simp] theorem setPC_ST (w : Word) : (setPC w s).ST = s.ST := rfl
@[simp] theorem setPC_fb (w : Word) : (setPC w s).fb = s.fb := rfl
@[simp] theorem setPC_drawFlag (w : Word) : (setPC w s).drawFlag = s.drawFlag := rfl
@[simp] theorem setPC_keys (w : Word) : (setPC w s).keys = s.keys := rfl
@[simp] theorem setPC_status (w : Word) : (setPC w s).status = s.status := rfl
@[simp] theorem setPC_draws (w : Word) : (setPC w s).draws = s.draws := rfl

/-! `setDT` -/

@[simp] theorem setDT_memory (b : Byte) : (setDT b s).memory = s.memory := rfl
@[simp] theorem setDT_V (b : Byte) : (setDT b s).V = s.V := rfl
@[simp] theorem setDT_I (b : Byte) : (setDT b s).I = s.I := rfl
@[simp] theorem setDT_PC (b : Byte) : (setDT b s).PC = s.PC := rfl
@[simp] theorem setDT_stack (b : Byte) : (setDT b s).stack = s.stack := rfl
@[simp] theorem setDT_SP (b : Byte) : (setDT b s).SP = s.SP := rfl
@[simp] theorem setDT_DT (b : Byte) : (setDT b s).DT = b := rfl
@[simp] theorem setDT_ST (b : Byte) : (setDT b s).ST = s.ST := rfl
@[simp] theorem setDT_fb (b : Byte) : (setDT b s).fb = s.fb := rfl
@[simp] theorem setDT_drawFlag (b : Byte) : (setDT b s).drawFlag = s.drawFlag := rfl
@[simp] theorem setDT_keys (b : Byte) : (setDT b s).keys = s.keys := rfl
@[simp] theorem setDT_status (b : Byte) : (setDT b s).status = s.status := rfl
@[simp] theorem setDT_draws (b : Byte) : (setDT b s).draws = s.draws := rfl

/-! `setST` -/

@[simp] theorem setST_memory (b : Byte) : (setST b s).memory = s.memory := rfl
@[simp] theorem setST_V (b : Byte) : (setST b s).V = s.V := rfl
@[simp] theorem setST_I (b : Byte) : (setST b s).I = s.I := rfl
@[simp] theorem setST_PC (b : Byte) : (setST b s).PC = s.PC := rfl
@[simp] theorem setST_stack (b : Byte) : (setST b s).stack = s.stack := rfl
@[simp] theorem setST_SP (b : Byte) : (setST b s).SP = s.SP := rfl
@[simp] theorem setST_DT (b : Byte) : (setST b s).DT = s.DT := rfl
@[simp] theorem setST_ST (b : Byte) : (setST b s).ST = b := rfl
@[simp] theorem setST_fb (b : Byte) : (setST b s).fb = s.fb := rfl
@[simp] theorem setST_drawFlag (b : Byte) : (setST b s).drawFlag = s.drawFlag := rfl
@[simp] theorem setST_keys (b : Byte) : (setST b s).keys = s.keys := rfl
@[simp] theorem setST_status (b : Byte) : (setST b s).status = s.status := rfl
@[simp] theorem setST_draws (b : Byte) : (setST b s).draws = s.draws := rfl

/-! `setFb` -/

@[simp] theorem setFb_memory (fb : Framebuffer) : (setFb fb s).memory = s.memory := rfl
@[simp] theorem setFb_V (fb : Framebuffer) : (setFb fb s).V = s.V := rfl
@[simp] theorem setFb_I (fb : Framebuffer) : (setFb fb s).I = s.I := rfl
@[simp] theorem setFb_PC (fb : Framebuffer) : (setFb fb s).PC = s.PC := rfl
@[simp] theorem setFb_stack (fb : Framebuffer) : (setFb fb s).stack = s.stack := rfl
@[simp] theorem setFb_SP (fb : Framebuffer) : (setFb fb s).SP = s.SP := rfl
@[simp] theorem setFb_DT (fb : Framebuffer) : (setFb fb s).DT = s.DT := rfl
@[simp] theorem setFb_ST (fb : Framebuffer) : (setFb fb s).ST = s.ST := rfl
@[simp] theorem setFb_fb (fb : Framebuffer) : (setFb fb s).fb = fb := rfl
@[simp] theorem setFb_drawFlag (fb : Framebuffer) : (setFb fb s).drawFlag = true := rfl
@[simp] theorem setFb_keys (fb : Framebuffer) : (setFb fb s).keys = s.keys := rfl
@[simp] theorem setFb_status (fb : Framebuffer) : (setFb fb s).status = s.status := rfl
@[simp] theorem setFb_draws (fb : Framebuffer) : (setFb fb s).draws = s.draws := rfl

/-! `countDraw` -/

@[simp] theorem countDraw_memory : (countDraw s).memory = s.memory := rfl
@[simp] theorem countDraw_V : (countDraw s).V = s.V := rfl
@[simp] theorem countDraw_I : (countDraw s).I = s.I := rfl
@[simp] theorem countDraw_PC : (countDraw s).PC = s.PC := rfl
@[simp] theorem countDraw_stack : (countDraw s).stack = s.stack := rfl
@[simp] theorem countDraw_SP : (countDraw s).SP = s.SP := rfl
@[simp] theorem countDraw_DT : (countDraw s).DT = s.DT := rfl
@[simp] theorem countDraw_ST : (countDraw s).ST = s.ST := rfl
@[simp] theorem countDraw_fb : (countDraw s).fb = s.fb := rfl
@[simp] theorem countDraw_drawFlag : (countDraw s).drawFlag = s.drawFlag := rfl
@[simp] theorem countDraw_keys : (countDraw s).keys = s.keys := rfl
@[simp] theorem countDraw_status : (countDraw s).status = s.status := rfl
@[simp] theorem countDraw_draws : (countDraw s).draws = s.draws + 1 := rfl

/-! `haltWith` -/

@[simp] theorem haltWith_memory (c : Cause) : (haltWith c s).memory = s.memory := rfl
@[simp] theorem haltWith_V (c : Cause) : (haltWith c s).V = s.V := rfl
@[simp] theorem haltWith_I (c : Cause) : (haltWith c s).I = s.I := rfl
@[simp] theorem haltWith_PC (c : Cause) : (haltWith c s).PC = s.PC := rfl
@[simp] theorem haltWith_stack (c : Cause) : (haltWith c s).stack = s.stack := rfl
@[simp] theorem haltWith_SP (c : Cause) : (haltWith c s).SP = s.SP := rfl
@[simp] theorem haltWith_DT (c : Cause) : (haltWith c s).DT = s.DT := rfl
@[simp] theorem haltWith_ST (c : Cause) : (haltWith c s).ST = s.ST := rfl
@[simp] theorem haltWith_fb (c : Cause) : (haltWith c s).fb = s.fb := rfl
@[simp] theorem haltWith_drawFlag (c : Cause) : (haltWith c s).drawFlag = s.drawFlag := rfl
@[simp] theorem haltWith_keys (c : Cause) : (haltWith c s).keys = s.keys := rfl
@[simp] theorem haltWith_status (c : Cause) : (haltWith c s).status = .halted c := rfl
@[simp] theorem haltWith_draws (c : Cause) : (haltWith c s).draws = s.draws := rfl

/-! `advancePC` -/

@[simp] theorem advancePC_memory : (advancePC s).memory = s.memory := rfl
@[simp] theorem advancePC_V : (advancePC s).V = s.V := rfl
@[simp] theorem advancePC_I : (advancePC s).I = s.I := rfl
@[simp] theorem advancePC_PC : (advancePC s).PC = s.PC + 2 := rfl
@[simp] theorem advancePC_stack : (advancePC s).stack = s.stack := rfl
@[simp] theorem advancePC_SP : (advancePC s).SP = s.SP := rfl
@[simp] theorem advancePC_DT : (advancePC s).DT = s.DT := rfl
@[simp] theorem advancePC_ST : (advancePC s).ST = s.ST := rfl
@[simp] theorem advancePC_fb : (advancePC s).fb = s.fb := rfl
@[simp] theorem advancePC_drawFlag : (advancePC s).drawFlag = s.drawFlag := rfl
@[simp] theorem advancePC_keys : (advancePC s).keys = s.keys := rfl
@[simp] theorem advancePC_status : (advancePC s).status = s.status := rfl
@[simp] theorem advancePC_draws : (advancePC s).draws = s.draws := rfl

/-! `skipIf` -/

@[simp] theorem skipIf_memory (c : Bool) : (skipIf c s).memory = s.memory := by cases c <;> rfl
@[simp] theorem skipIf_V (c : Bool) : (skipIf c s).V = s.V := by cases c <;> rfl
@[simp] theorem skipIf_I (c : Bool) : (skipIf c s).I = s.I := by cases c <;> rfl
@[simp] theorem skipIf_PC (c : Bool) : (skipIf c s).PC = if c then s.PC + 2 else s.PC := by cases c <;> rfl
@[simp] theorem skipIf_stack (c : Bool) : (skipIf c s).stack = s.stack := by cases c <;> rfl
@[simp] theorem skipIf_SP (c : Bool) : (skipIf c s).SP = s.SP := by cases c <;> rfl
@[simp] theorem skipIf_DT (c : Bool) : (skipIf c s).DT = s.DT := by cases c <;> rfl
@[simp] theorem skipIf_ST (c : Bool) : (skipIf c s).ST = s.ST := by cases c <;> rfl
@[simp] theorem skipIf_fb (c : Bool) : (skipIf c s).fb = s.fb := by cases c <;> rfl
@[simp] theorem skipIf_drawFlag (c : Bool) : (skipIf c s).drawFlag = s.drawFlag := by cases c <;> rfl
@[simp] theorem skipIf_keys (c : Bool) : (skipIf c s).keys = s.keys := by cases c <;> rfl
@[simp] theorem skipIf_status (c : Bool) : (skipIf c s).status = s.status := by cases c <;> rfl
@[simp] theorem skipIf_draws (c : Bool) : (skipIf c s).draws = s.draws := by cases c <;> rfl

/-! `tickTimers` -/

@[simp] theorem tickTimers_memory : (tickTimers s).memory = s.memory := rfl
@[simp] theorem tickTimers_V : (tickTimers s).V = s.V := rfl
@[simp] theorem tickTimers_I : (tickTimers s).I = s.I := rfl
@[simp] theorem tickTimers_PC : (tickTimers s).PC = s.PC := rfl
@[simp] theorem tickTimers_stack : (tickTimers s).stack = s.stack := rfl
@[simp] theorem tickTimers_SP : (tickTimers s).SP = s.SP := rfl
@[simp] theorem tickTimers_DT : (tickTimers s).DT = countDown s.DT := rfl
@[simp] theorem tickTimers_ST : (tickTimers s).ST = countDown s.ST := rfl
@[simp] theorem tickTimers_fb : (tickTimers s).fb = s.fb := rfl
@[simp] theorem tickTimers_drawFlag : (tickTimers s).drawFlag = s.drawFlag := rfl
@[simp] theorem tickTimers_keys : (tickTimers s).keys = s.keys := rfl
@[simp] theorem tickTimers_status : (tickTimers s).status = s.status := rfl
@[simp] theorem tickTimers_draws : (tickTimers s).draws = s.draws := rfl

/-! `setFlag` -/

@[simp] theorem setFlag_memory (b : Bool) : (setFlag b s).memory = s.memory := rfl
@[simp] theorem setFlag_V (b : Bool) : (setFlag b s).V = s.V.set 15 (flagByte b) := rfl
@[simp] theorem setFlag_I (b : Bool) : (setFlag b s).I = s.I := rfl
@[simp] theorem setFlag_PC (b : Bool) : (setFlag b s).PC = s.PC := rfl
@[simp] theorem setFlag_stack (b : Bool) : (setFlag b s).stack = s.stack := rfl
@[simp] theorem setFlag_SP (b : Bool) : (setFlag b s).SP = s.SP := rfl
@[simp] theorem setFlag_DT (b : Bool) : (setFlag b s).DT = s.DT := rfl
@[simp] theorem setFlag_ST (b : Bool) : (setFlag b s).ST = s.ST := rfl
@[simp] theorem setFlag_fb (b : Bool) : (setFlag b s).fb = s.fb := rfl
@[simp] theorem setFlag_drawFlag (b : Bool) : (setFlag b s).drawFlag = s.drawFlag := rfl
@[simp] theorem setFlag_keys (b : Bool) : (setFlag b s).keys = s.keys := rfl
@[simp] theorem setFlag_status (b : Bool) : (setFlag b s).status = s.status := rfl
@[simp] theorem setFlag_draws (b : Bool) : (setFlag b s).draws = s.draws := rfl

/-! `commitFlagged` -/

@[simp] theorem commitFlagged_memory (p : Params) (x : RegNum) (b : Byte) (f : Bool) : (commitFlagged p x b f s).memory = s.memory := by unfold commitFlagged; cases p.vfWriteOrder <;> rfl
@[simp] theorem commitFlagged_I (p : Params) (x : RegNum) (b : Byte) (f : Bool) : (commitFlagged p x b f s).I = s.I := by unfold commitFlagged; cases p.vfWriteOrder <;> rfl
@[simp] theorem commitFlagged_PC (p : Params) (x : RegNum) (b : Byte) (f : Bool) : (commitFlagged p x b f s).PC = s.PC := by unfold commitFlagged; cases p.vfWriteOrder <;> rfl
@[simp] theorem commitFlagged_stack (p : Params) (x : RegNum) (b : Byte) (f : Bool) : (commitFlagged p x b f s).stack = s.stack := by unfold commitFlagged; cases p.vfWriteOrder <;> rfl
@[simp] theorem commitFlagged_SP (p : Params) (x : RegNum) (b : Byte) (f : Bool) : (commitFlagged p x b f s).SP = s.SP := by unfold commitFlagged; cases p.vfWriteOrder <;> rfl
@[simp] theorem commitFlagged_DT (p : Params) (x : RegNum) (b : Byte) (f : Bool) : (commitFlagged p x b f s).DT = s.DT := by unfold commitFlagged; cases p.vfWriteOrder <;> rfl
@[simp] theorem commitFlagged_ST (p : Params) (x : RegNum) (b : Byte) (f : Bool) : (commitFlagged p x b f s).ST = s.ST := by unfold commitFlagged; cases p.vfWriteOrder <;> rfl
@[simp] theorem commitFlagged_fb (p : Params) (x : RegNum) (b : Byte) (f : Bool) : (commitFlagged p x b f s).fb = s.fb := by unfold commitFlagged; cases p.vfWriteOrder <;> rfl
@[simp] theorem commitFlagged_drawFlag (p : Params) (x : RegNum) (b : Byte) (f : Bool) : (commitFlagged p x b f s).drawFlag = s.drawFlag := by unfold commitFlagged; cases p.vfWriteOrder <;> rfl
@[simp] theorem commitFlagged_keys (p : Params) (x : RegNum) (b : Byte) (f : Bool) : (commitFlagged p x b f s).keys = s.keys := by unfold commitFlagged; cases p.vfWriteOrder <;> rfl
@[simp] theorem commitFlagged_status (p : Params) (x : RegNum) (b : Byte) (f : Bool) : (commitFlagged p x b f s).status = s.status := by unfold commitFlagged; cases p.vfWriteOrder <;> rfl
@[simp] theorem commitFlagged_draws (p : Params) (x : RegNum) (b : Byte) (f : Bool) : (commitFlagged p x b f s).draws = s.draws := by unfold commitFlagged; cases p.vfWriteOrder <;> rfl

/-! `storeAtI` -/

@[simp] theorem storeAtI_memory (bs : List Byte) : (storeAtI bs s).memory = s.memory.writeBytes s.I.toNat bs := rfl
@[simp] theorem storeAtI_V (bs : List Byte) : (storeAtI bs s).V = s.V := rfl
@[simp] theorem storeAtI_I (bs : List Byte) : (storeAtI bs s).I = s.I := rfl
@[simp] theorem storeAtI_PC (bs : List Byte) : (storeAtI bs s).PC = s.PC := rfl
@[simp] theorem storeAtI_stack (bs : List Byte) : (storeAtI bs s).stack = s.stack := rfl
@[simp] theorem storeAtI_SP (bs : List Byte) : (storeAtI bs s).SP = s.SP := rfl
@[simp] theorem storeAtI_DT (bs : List Byte) : (storeAtI bs s).DT = s.DT := rfl
@[simp] theorem storeAtI_ST (bs : List Byte) : (storeAtI bs s).ST = s.ST := rfl
@[simp] theorem storeAtI_fb (bs : List Byte) : (storeAtI bs s).fb = s.fb := rfl
@[simp] theorem storeAtI_drawFlag (bs : List Byte) : (storeAtI bs s).drawFlag = s.drawFlag := rfl
@[simp] theorem storeAtI_keys (bs : List Byte) : (storeAtI bs s).keys = s.keys := rfl
@[simp] theorem storeAtI_status (bs : List Byte) : (storeAtI bs s).status = s.status := rfl
@[simp] theorem storeAtI_draws (bs : List Byte) : (storeAtI bs s).draws = s.draws := rfl

/-! `loadRegs` -/

@[simp] theorem loadRegs_memory (x : RegNum) : (loadRegs x s).memory = s.memory := rfl
@[simp] theorem loadRegs_I (x : RegNum) : (loadRegs x s).I = s.I := rfl
@[simp] theorem loadRegs_PC (x : RegNum) : (loadRegs x s).PC = s.PC := rfl
@[simp] theorem loadRegs_stack (x : RegNum) : (loadRegs x s).stack = s.stack := rfl
@[simp] theorem loadRegs_SP (x : RegNum) : (loadRegs x s).SP = s.SP := rfl
@[simp] theorem loadRegs_DT (x : RegNum) : (loadRegs x s).DT = s.DT := rfl
@[simp] theorem loadRegs_ST (x : RegNum) : (loadRegs x s).ST = s.ST := rfl
@[simp] theorem loadRegs_fb (x : RegNum) : (loadRegs x s).fb = s.fb := rfl
@[simp] theorem loadRegs_drawFlag (x : RegNum) : (loadRegs x s).drawFlag = s.drawFlag := rfl
@[simp] theorem loadRegs_keys (x : RegNum) : (loadRegs x s).keys = s.keys := rfl
@[simp] theorem loadRegs_status (x : RegNum) : (loadRegs x s).status = s.status := rfl
@[simp] theorem loadRegs_draws (x : RegNum) : (loadRegs x s).draws = s.draws := rfl

/-! `setKey` -/

@[simp] theorem setKey_memory (k : Fin 16) (b : Bool) : (setKey k b s).memory = s.memory := rfl
@[simp] theorem setKey_V (k : Fin 16) (b : Bool) : (setKey k b s).V = s.V := rfl
@[simp] theorem setKey_I (k : Fin 16) (b : Bool) : (setKey k b s).I = s.I := rfl
@[simp] theorem setKey_PC (k : Fin 16) (b : Bool) : (setKey k b s).PC = s.PC := rfl
@[simp] theorem setKey_stack (k : Fin 16) (b : Bool) : (setKey k b s).stack = s.stack := rfl
@[simp] theorem setKey_SP (k : Fin 16) (b : Bool) : (setKey k b s).SP = s.SP := rfl
@[simp] theorem setKey_DT (k : Fin 16) (b : Bool) : (setKey k b s).DT = s.DT := rfl
@[simp] theorem setKey_ST (k : Fin 16) (b : Bool) : (setKey k b s).ST = s.ST := rfl
@[simp] theorem setKey_fb (k : Fin 16) (b : Bool) : (setKey k b s).fb = s.fb := rfl
@[simp] theorem setKey_drawFlag (k : Fin 16) (b : Bool) : (setKey k b s).drawFlag = s.drawFlag := rfl
@[simp] theorem setKey_keys (k : Fin 16) (b : Bool) : (setKey k b s).keys = s.keys.set k.val b := rfl
@[simp] theorem setKey_status (k : Fin 16) (b : Bool) : (setKey k b s).status = s.status := rfl
@[simp] theorem setKey_draws (k : Fin 16) (b : Bool) : (setKey k b s).draws = s.draws := rfl

end Sys2Proof.Machine
end

