-- ==== Sys2Proof/Laws/Registers.lean ====
section
/-! SUPPORT. The laws of the register accessors, the flag writes, the framebuffer, the call stack and the timers' countdown. -/

namespace Sys2Proof.Machine

/-! ## General registers -/

theorem readReg_writeReg (s : State) (x k : RegNum) (b : Byte) :
    readReg (writeReg x b s) k = if k = x then b else readReg s k := by
  unfold readReg
  rw [writeReg_V, Vector.getElem_set]
  by_cases h : k = x
  · simp [h]
  · have : ¬ x.val = k.val := fun e => h (Fin.ext e.symm)
    simp [h, this]

@[simp] theorem readReg_writeReg_same (s : State) (x : RegNum) (b : Byte) : readReg (writeReg x b s) x = b := by
  simp [readReg_writeReg]

theorem readReg_writeReg_ne (s : State) {x k : RegNum} (b : Byte) (h : k ≠ x) :
    readReg (writeReg x b s) k = readReg s k := by
  simp [readReg_writeReg, h]

theorem readReg_setFlag (s : State) (f : Bool) (k : RegNum) :
    readReg (setFlag f s) k = if k = 0xF then flagByte f else readReg s k :=
  readReg_writeReg s 0xF k (flagByte f)

/-- The two writes of a flag-producing instruction: where x is not 0xF, the result and the flag; where it is, the later. -/
theorem readReg_commitFlagged (p : Params) (x k : RegNum) (res : Byte) (f : Bool) (s : State) :
    readReg (commitFlagged p x res f s) k =
      if k = 0xF ∧ (x ≠ 0xF ∨ p.vfWriteOrder = .flagLast) then flagByte f
      else if k = x then res
      else readReg s k := by
  unfold commitFlagged
  cases p.vfWriteOrder
  · by_cases hk : k = 0xF <;> simp [readReg_setFlag, readReg_writeReg, hk]
  · by_cases hx : k = x
    · subst hx
      by_cases hk : k = 0xF <;> simp [hk]
    · by_cases hk : k = 0xF
      · have : x ≠ 0xF := fun e => hx (hk.trans e.symm)
        simp [readReg_writeReg, readReg_setFlag, hk, this, Ne.symm this]
      · simp [readReg_writeReg, readReg_setFlag, hx, hk]

theorem readReg_loadRegs (s : State) (x k : RegNum) :
    readReg (loadRegs x s) k = if k ≤ x then dataByte s k.val else readReg s k := by
  unfold readReg loadRegs
  simp [Vector.getElem_ofFn, readReg]

@[simp] theorem readReg_setMemory (s : State) (m : Memory) (k : RegNum) : readReg (setMemory m s) k = readReg s k := rfl
@[simp] theorem readReg_setI (s : State) (w : Word) (k : RegNum) : readReg (setI w s) k = readReg s k := rfl
@[simp] theorem readReg_setPC (s : State) (w : Word) (k : RegNum) : readReg (setPC w s) k = readReg s k := rfl
@[simp] theorem readReg_setDT (s : State) (b : Byte) (k : RegNum) : readReg (setDT b s) k = readReg s k := rfl
@[simp] theorem readReg_setST (s : State) (b : Byte) (k : RegNum) : readReg (setST b s) k = readReg s k := rfl
@[simp] theorem readReg_setFb (s : State) (fb : Framebuffer) (k : RegNum) : readReg (setFb fb s) k = readReg s k := rfl
@[simp] theorem readReg_countDraw (s : State) (k : RegNum) : readReg (countDraw s) k = readReg s k := rfl
@[simp] theorem readReg_haltWith (s : State) (c : Cause) (k : RegNum) : readReg (haltWith c s) k = readReg s k := rfl
@[simp] theorem readReg_advancePC (s : State) (k : RegNum) : readReg (advancePC s) k = readReg s k := rfl
@[simp] theorem readReg_tickTimers (s : State) (k : RegNum) : readReg (tickTimers s) k = readReg s k := rfl
@[simp] theorem readReg_storeAtI (s : State) (bs : List Byte) (k : RegNum) : readReg (storeAtI bs s) k = readReg s k := rfl
@[simp] theorem readReg_setKey (s : State) (j : Fin 16) (b : Bool) (k : RegNum) : readReg (setKey j b s) k = readReg s k := rfl
@[simp] theorem readReg_skipIf (s : State) (c : Bool) (k : RegNum) : readReg (skipIf c s) k = readReg s k := by cases c <;> rfl

/-! ## The framebuffer -/

theorem pixel_togglePixel (fb : Framebuffer) (r r' : Fin 32) (c c' : Fin 64) :
    pixel (togglePixel fb r c) r' c' = (pixel fb r' c' ^^ (decide (r' = r) && decide (c' = c))) := by
  unfold pixel togglePixel
  rw [Vector.getElem_set]
  by_cases hr : r' = r
  · subst hr
    by_cases hc : c' = c
    · subst hc; simp
    · have : ¬ c'.val = c.val := fun e => hc (Fin.ext e)
      simp [hc, this]
  · have : ¬ r.val = r'.val := fun e => hr (Fin.ext e.symm)
    simp [hr, this]

@[simp] theorem pixel_blankFb (r : Fin 32) (c : Fin 64) : pixel blankFb r c = false := by
  simp [pixel, blankFb]

/-- Two framebuffers with the same pixels are equal. -/
theorem fb_eq_of_pixel {a b : Framebuffer} (h : ∀ r c, pixel a r c = pixel b r c) : a = b := by
  ext r hr c hc
  have := h ⟨r, hr⟩ ⟨c, hc⟩
  simpa [pixel, BitVec.getLsbD_eq_getElem hc] using this

/-! ## The call stack -/

theorem pushStack_eq_some {w : Word} {s t : State} (h : pushStack w s = some t) :
    ∃ hsp : s.SP.val < 16, t = { s with stack := s.stack.set s.SP.val w, SP := ⟨s.SP.val + 1, by omega⟩ } := by
  unfold pushStack at h
  split at h
  · rename_i hsp
    exact ⟨hsp, (Option.some.inj h).symm⟩
  · cases h

theorem pushStack_eq_none {w : Word} {s : State} : pushStack w s = none ↔ s.SP.val = 16 := by
  unfold pushStack
  split
  · simp; omega
  · have := s.SP.isLt
    simp; omega

theorem popStack_eq_some {w : Word} {s t : State} (h : popStack s = some (w, t)) :
    ∃ hsp : 0 < s.SP.val, w = s.stack[s.SP.val - 1]'(by omega) ∧ t = { s with SP := ⟨s.SP.val - 1, by omega⟩ } := by
  unfold popStack at h
  split at h
  · rename_i hsp
    have := Option.some.inj h
    exact ⟨hsp, (congrArg Prod.fst this).symm, (congrArg Prod.snd this).symm⟩
  · cases h

theorem popStack_eq_none {s : State} : popStack s = none ↔ s.SP.val = 0 := by
  unfold popStack
  split <;> simp <;> omega

/-! ## Timers -/

theorem countDown_toNat (t : Byte) : (countDown t).toNat = t.toNat - 1 := by
  unfold countDown
  split
  · rename_i h; simp [h]
  · rename_i h
    have : t.toNat ≠ 0 := fun e => h (BitVec.eq_of_toNat_eq e)
    have := t.isLt
    rw [BitVec.toNat_sub]
    simp
    omega

end Sys2Proof.Machine
end

