-- ==== Sys2Proof/Laws/Step.lean ====
section
/-! SUPPORT. What the shared parts of a step can do, said once: the data check, the end of a step, the fetch, the cycle. -/

namespace Sys2Proof.Machine

/-- The data check lets the access through, or raises MemoryOutOfRange. -/
theorem withDataAt_cases (len : Nat) (s : State) (access : Result) :
    (inMemory s.I.toNat len = true ∧ withDataAt len s access = access) ∨
    (inMemory s.I.toNat len = false ∧ withDataAt len s access = .next (haltWith .memoryOutOfRange s)) := by
  unfold withDataAt
  by_cases h : inMemory s.I.toNat len = true
  · exact .inl ⟨h, by simp [h]⟩
  · exact .inr ⟨by simpa using h, by simp [h, raiseFatal]⟩

theorem inMemory_iff (a len : Nat) : inMemory a len = true ↔ len = 0 ∨ a + len ≤ 4096 := by
  simp [inMemory]

/-- The end of a step whose instruction left the core running. -/
theorem completeStep_running {s0 t : State} {u : Option Word} (h : t.status = .running) :
    completeStep s0 t u = (tickTimers t, ⟨u, t.ST == 1⟩) := by
  simp [completeStep, h]

/-- The end of a step whose instruction raised a fatal condition. -/
theorem completeStep_halted {s0 t : State} {u : Option Word} {c : Cause} (h : t.status = .halted c) :
    completeStep s0 t u = (haltWith c s0, noSignals) := by
  simp [completeStep, h]

/-- A halted core's cycle changes nothing and emits nothing. -/
theorem cycleWith_halted {p : Params} {run : Instr → State → Result} {s : State} {c : Cause}
    (h : s.status = .halted c) : cycleWith p run s = .next (s, noSignals) := by
  simp [cycleWith, h]

/-- A running core whose fetch raises a fatal condition. -/
theorem cycleWith_fatal {p : Params} {run : Instr → State → Result} {s : State} {c : Cause}
    (h : s.status = .running) (hf : fetch p s = .fatal c) :
    cycleWith p run s = .next (haltWith c s, noSignals) := by
  simp [cycleWith, h, hf]

/-- A running core whose fetch gives a word. -/
theorem cycleWith_word {p : Params} {run : Instr → State → Result} {s : State} {w : Word}
    (h : s.status = .running) (hf : fetch p s = .word w) : cycleWith p run s = runWord run s w := by
  simp [cycleWith, h, hf]

/-- Where the fetch's checks pass, it gives the big-endian word at PC. -/
theorem fetch_word {p : Params} {s : State} (hr : s.PC.toNat ≤ 4094)
    (ha : s.PC.toNat % 2 = 0 ∨ p.oddPcPolicy = .fetch) :
    fetch p s = .word (wordOfBytes (s.memory.read s.PC.toNat) (s.memory.read (s.PC.toNat + 1))) := by
  have h1 : ¬ 4094 < s.PC.toNat := by omega
  have h2 : ¬ (s.PC.toNat % 2 = 1 ∧ p.oddPcPolicy = .fault) := by
    rcases ha with ha | ha
    · omega
    · simp [ha]
  simp [fetch, h1, h2]

/-- Under the parameters of this hardware the parametric execute is exec. -/
theorem execWith_params : execWith params = exec := by
  funext i s
  cases i <;> rfl

@[simp] theorem status_ne_running_iff (st : Status) : st ≠ .running ↔ ∃ c, st = .halted c := by
  cases st <;> simp

end Sys2Proof.Machine
end

