-- ==== Sys2Proof/Laws/Exec.lean ====
section
/-! SUPPORT. What every instruction can do, said once: `exec` answers a next state, and `Post` names it in terms of the shared
operations. Proofs about all instructions cite `exec_post` and never unfold a meaning. -/

namespace Sys2Proof.Machine

/-- The state a data instruction leaves: `t'` if its `len` bytes at I are in memory, and the halted state otherwise. -/
def DataPost (len : Nat) (s t' t : State) : Prop :=
  (inMemory s.I.toNat len = true ∧ t = t') ∨ (inMemory s.I.toNat len = false ∧ t = haltWith .memoryOutOfRange s)

/-- The state a key skip leaves. -/
def KeySkipPost (x : RegNum) (pressed : Bool) (s t : State) : Prop :=
  (∃ k : Fin 16, k.val = (readReg s x).toNat ∧ t = skipIf (keyPressed s k == pressed) s) ∨
  (15 < (readReg s x).toNat ∧ t = haltWith .keyIndexOutOfRange s)

/-- The state each instruction leaves. -/
def Post : Instr → State → State → Prop
  | .cls, s, t          => t = setFb blankFb s
  | .ret, s, t          =>
      (∃ h : 0 < s.SP.val, t =
        { s with SP := ⟨s.SP.val - 1, by omega⟩, PC := s.stack[s.SP.val - 1]'(by have := s.SP.isLt; omega) }) ∨
      (s.SP.val = 0 ∧ t = haltWith .stackUnderflow s)
  | .jp nnn, s, t       => t = setPC (addrOperand nnn) s
  | .call nnn, s, t     =>
      (∃ h : s.SP.val < 16, t =
        { s with SP := ⟨s.SP.val + 1, by omega⟩, stack := s.stack.set s.SP.val s.PC, PC := addrOperand nnn }) ∨
      (s.SP.val = 16 ∧ t = haltWith .stackOverflow s)
  | .seByte x nn, s, t  => t = skipIf (readReg s x == nn) s
  | .sneByte x nn, s, t => t = skipIf (readReg s x != nn) s
  | .seReg x y, s, t    => t = skipIf (readReg s x == readReg s y) s
  | .sneReg x y, s, t   => t = skipIf (readReg s x != readReg s y) s
  | .ldByte x nn, s, t  => t = writeReg x nn s
  | .addByte x nn, s, t => t = writeReg x (readReg s x + nn) s
  | .ldReg x y, s, t    => t = writeReg x (readReg s y) s
  | .orReg x y, s, t    => t = writeReg x (readReg s x ||| readReg s y) s
  | .andReg x y, s, t   => t = writeReg x (readReg s x &&& readReg s y) s
  | .xorReg x y, s, t   => t = writeReg x (readReg s x ^^^ readReg s y) s
  | .addReg x y, s, t   =>
      t = commitFlagged params x (readReg s x + readReg s y) (addCarry (readReg s x) (readReg s y)) s
  | .subReg x y, s, t   =>
      t = commitFlagged params x (readReg s x - readReg s y) (noBorrow (readReg s x) (readReg s y)) s
  | .subnReg x y, s, t  =>
      t = commitFlagged params x (readReg s y - readReg s x) (noBorrow (readReg s y) (readReg s x)) s
  | .shr x y, s, t      =>
      t = commitFlagged params x (shiftOperand params x y s >>> 1) (shiftedOutRight (shiftOperand params x y s)) s
  | .shl x y, s, t      =>
      t = commitFlagged params x (shiftOperand params x y s <<< 1) (shiftedOutLeft (shiftOperand params x y s)) s
  | .ldI nnn, s, t      => t = setI (addrOperand nnn) s
  | .jpV0 nnn, s, t     => t = setPC (zext16 (readReg s 0) + addrOperand nnn) s
  | .rnd x nn, s, t     => t = writeReg x (nn &&& randomByte s) (countDraw s)
  | .drw x y n, s, t    =>
      DataPost n.val s
        (setFlag (drawSprite params x y n s).collision (setFb (drawSprite params x y n s).fb s)) t
  | .skp x, s, t        => KeySkipPost x true s t
  | .sknp x, s, t       => KeySkipPost x false s t
  | .ldVxDT x, s, t     => t = writeReg x s.DT s
  | .ldVxKey x, s, t    =>
      (∃ k, lowestPressed s = some k ∧ t = writeReg x (BitVec.ofNat 8 k.val) s) ∨
      (lowestPressed s = none ∧ t = setPC (s.PC - 2) s)
  | .ldDTVx x, s, t     => t = setDT (readReg s x) s
  | .ldSTVx x, s, t     => t = setST (readReg s x) s
  | .addIVx x, s, t     =>
      t = setFlag (indexOverflow (s.I.toNat + (readReg s x).toNat))
            (setI (indexSum params (s.I.toNat + (readReg s x).toNat)) s)
  | .ldFVx x, s, t      => t = setI (zext16 (readReg s x) * 5) s
  | .ldBVx x, s, t      => DataPost 3 s (storeAtI (decimalDigits (readReg s x)) s) t
  | .ldMemVx x, s, t    => DataPost (x.val + 1) s (setI (indexAfterBlock x) (storeAtI (regsUpTo s x) s)) t
  | .ldVxMem x, s, t    => DataPost (x.val + 1) s (setI (indexAfterBlock x) (loadRegs x s)) t

theorem withDataAt_post (len : Nat) (s t' : State) :
    ∃ t, withDataAt len s (.next t') = .next t ∧ DataPost len s t' t := by
  rcases withDataAt_cases len s (.next t') with ⟨h, e⟩ | ⟨h, e⟩
  · exact ⟨_, e, .inl ⟨h, rfl⟩⟩
  · exact ⟨_, e, .inr ⟨h, rfl⟩⟩

theorem skipOnKey_post (x : RegNum) (pressed : Bool) (s : State) :
    ∃ t, skipOnKey x pressed s = .next t ∧ KeySkipPost x pressed s t := by
  unfold skipOnKey keyOperand
  by_cases h : (readReg s x).toNat < 16
  · simp only [h, dite_true]
    exact ⟨_, rfl, .inl ⟨⟨_, h⟩, rfl, rfl⟩⟩
  · simp only [h, dite_false]
    exact ⟨_, rfl, .inr ⟨by omega, rfl⟩⟩

theorem execRet_post (s : State) : ∃ t, execRet s = .next t ∧ Post .ret s t := by
  unfold execRet
  cases h : popStack s with
  | none => exact ⟨_, rfl, .inr ⟨popStack_eq_none.mp h, rfl⟩⟩
  | some q =>
    obtain ⟨w, t⟩ := q
    obtain ⟨hs, rfl, rfl⟩ := popStack_eq_some h
    exact ⟨_, rfl, .inl ⟨hs, rfl⟩⟩

theorem execCall_post (nnn : Addr12) (s : State) : ∃ t, execCall nnn s = .next t ∧ Post (.call nnn) s t := by
  unfold execCall
  cases h : pushStack s.PC s with
  | none => exact ⟨_, rfl, .inr ⟨pushStack_eq_none.mp h, rfl⟩⟩
  | some t =>
    obtain ⟨hs, rfl⟩ := pushStack_eq_some h
    exact ⟨_, rfl, .inl ⟨hs, rfl⟩⟩

theorem execLdVxKey_post (x : RegNum) (s : State) : ∃ t, execLdVxKey x s = .next t ∧ Post (.ldVxKey x) s t := by
  unfold execLdVxKey
  cases h : lowestPressed s with
  | none => exact ⟨_, rfl, .inr ⟨h, rfl⟩⟩
  | some k => exact ⟨_, rfl, .inl ⟨k, h, rfl⟩⟩

/-- Every instruction answers a next state, the one `Post` names. -/
theorem exec_total (i : Instr) (s : State) : ∃ t, exec i s = .next t ∧ Post i s t := by
  cases i
  case ret => exact execRet_post s
  case call nnn => exact execCall_post nnn s
  case ldVxKey x => exact execLdVxKey_post x s
  case drw x y n => exact withDataAt_post n.val s _
  case ldBVx x => exact withDataAt_post 3 s _
  case ldMemVx x => exact withDataAt_post (x.val + 1) s _
  case ldVxMem x => exact withDataAt_post (x.val + 1) s _
  case skp x => exact skipOnKey_post x true s
  case sknp x => exact skipOnKey_post x false s
  all_goals exact ⟨_, rfl, rfl⟩

/-- The inversion of exec: the state it answers is the one `Post` names. -/
theorem exec_post {i : Instr} {s t : State} (h : exec i s = .next t) : Post i s t := by
  obtain ⟨u, hu, hp⟩ := exec_total i s
  rw [h] at hu
  injection hu with hu
  exact hu ▸ hp

/-- Under any parameters the parametric execute answers a next state. -/
theorem execWith_total (p : Params) (i : Instr) (s : State) : ∃ t, execWith p i s = .next t := by
  have base := exec_total i s
  cases i with
  | drw x y n => exact (withDataAt_post n.val s _).imp fun _ h => h.1
  | addReg | subReg | shr | subnReg | shl | addIVx => exact ⟨_, rfl⟩
  | _ => exact base.imp fun _ h => h.1

end Sys2Proof.Machine
end

