-- ==== Sys2Proof/Laws/Memory.lean ====
section
/-! SUPPORT. The laws of the memory: a read after a write, and that every operation keeps the canonical form. -/

namespace Sys2Proof.Machine

/-! ## A list whose cells all lie above an address reads as reset there -/

theorem Memory.wfFrom_cons {lo a : Nat} {b : Byte} {m : Memory} :
    Memory.wfFrom lo ((a, b) :: m) = true ↔
      lo ≤ a ∧ a < 4096 ∧ b ≠ unlisted a ∧ Memory.wfFrom (a + 1) m = true := by
  simp [Memory.wfFrom, and_assoc]

theorem Memory.wfFrom_mono {lo lo' : Nat} {m : Memory} (h : Memory.wfFrom lo m = true) (hle : lo' ≤ lo) :
    Memory.wfFrom lo' m = true := by
  cases m with
  | nil => rfl
  | cons c m =>
    obtain ⟨a, b⟩ := c
    rw [Memory.wfFrom_cons] at h ⊢
    exact ⟨Nat.le_trans hle h.1, h.2⟩

theorem Memory.read_below {lo a : Nat} {m : Memory} (h : Memory.wfFrom lo m = true) (ha : a < lo) :
    m.read a = unlisted a := by
  induction m generalizing lo with
  | nil => rfl
  | cons c m ih =>
    obtain ⟨k, b⟩ := c
    rw [Memory.wfFrom_cons] at h
    have hne : a ≠ k := by omega
    simp only [Memory.read, hne, if_false]
    exact ih h.2.2.2 (by omega)

/-! ## Read after write -/

theorem Memory.read_cellFor_append (a : Nat) (v : Byte) (m : Memory) (a' : Nat) (h : m.read a = unlisted a) :
    Memory.read (cellFor a v ++ m) a' = if a' = a then v else m.read a' := by
  unfold cellFor
  split
  · rename_i hv
    by_cases ha : a' = a
    · subst ha; simp [h, hv]
    · simp [ha]
  · by_cases ha : a' = a <;> simp [Memory.read, ha]

/-- A write changes the byte at its address and no other, in every canonical memory. -/
theorem Memory.read_write {lo : Nat} {m : Memory} (h : Memory.wfFrom lo m = true) (a : Nat) (v : Byte) (a' : Nat) :
    (m.write a v).read a' = if a' = a then v else m.read a' := by
  induction m generalizing lo with
  | nil =>
    have := Memory.read_cellFor_append a v [] a' rfl
    simpa [Memory.write] using this
  | cons c m ih =>
    obtain ⟨k, b⟩ := c
    have hm := (Memory.wfFrom_cons.mp h).2.2.2
    simp only [Memory.write]
    split
    · rename_i hlt
      have hwf : Memory.wfFrom k ((k, b) :: m) = true := by
        rw [Memory.wfFrom_cons] at h ⊢
        exact ⟨Nat.le_refl k, h.2⟩
      exact Memory.read_cellFor_append a v _ a' (Memory.read_below hwf hlt)
    · split
      · rename_i hk
        subst hk
        rw [Memory.read_cellFor_append a v m a' (Memory.read_below hm (Nat.lt_succ_self a))]
        by_cases ha : a' = a <;> simp [Memory.read, ha]
      · rename_i hk
        simp only [Memory.read, ih hm]
        by_cases h1 : a' = k
        · have : a' ≠ a := by omega
          simp [h1, Ne.symm hk]
        · simp [h1]

/-- A write leaves every other address alone, in every memory, canonical or not. -/
theorem Memory.read_write_other (m : Memory) {a a' : Nat} (v : Byte) (h : a' ≠ a) : (m.write a v).read a' = m.read a' := by
  have hc : ∀ l : Memory, Memory.read (cellFor a v ++ l) a' = l.read a' := by
    intro l
    unfold cellFor
    split <;> simp [Memory.read, h]
  induction m with
  | nil => simpa [Memory.write] using hc []
  | cons c m ih =>
    obtain ⟨k, b⟩ := c
    simp only [Memory.write]
    split
    · exact hc _
    · split
      · rename_i hk
        subst hk
        rw [hc]
        simp [Memory.read, h]
      · simp [Memory.read, ih]

/-- Writing several bytes leaves every address outside them alone, in every memory. -/
theorem Memory.read_writeBytes_other (m : Memory) {a a' : Nat} (bs : List Byte) (h : a' < a ∨ a + bs.length ≤ a') :
    (m.writeBytes a bs).read a' = m.read a' := by
  induction bs generalizing m a with
  | nil => rfl
  | cons b bs ih =>
    simp only [List.length_cons] at h
    simp only [Memory.writeBytes]
    rw [ih _ (by omega), Memory.read_write_other _ _ (by omega)]

/-! ## Every operation keeps the canonical form -/

theorem Memory.wfFrom_cellFor_append {lo a : Nat} {v : Byte} {m : Memory} (hlo : lo ≤ a) (ha : a < 4096)
    (h : Memory.wfFrom (a + 1) m = true) : Memory.wfFrom lo (cellFor a v ++ m) = true := by
  unfold cellFor
  split
  · exact Memory.wfFrom_mono h (by omega)
  · rename_i hv
    exact Memory.wfFrom_cons.mpr ⟨hlo, ha, hv, h⟩

theorem Memory.write_wfFrom {lo a : Nat} {v : Byte} {m : Memory} (h : Memory.wfFrom lo m = true) (hlo : lo ≤ a)
    (ha : a < 4096) : Memory.wfFrom lo (m.write a v) = true := by
  induction m generalizing lo with
  | nil =>
    have := Memory.wfFrom_cellFor_append (v := v) (m := []) hlo ha rfl
    simpa [Memory.write] using this
  | cons c m ih =>
    obtain ⟨k, b⟩ := c
    have h' := Memory.wfFrom_cons.mp h
    simp only [Memory.write]
    split
    · rename_i hlt
      exact Memory.wfFrom_cellFor_append hlo ha (Memory.wfFrom_cons.mpr ⟨hlt, h'.2⟩)
    · split
      · rename_i hk
        subst hk
        exact Memory.wfFrom_cellFor_append hlo ha h'.2.2.2
      · exact Memory.wfFrom_cons.mpr ⟨h'.1, h'.2.1, h'.2.2.1, ih h'.2.2.2 (by omega)⟩

/-- A write of one byte keeps the canonical form. -/
theorem Memory.write_wf {a : Nat} {v : Byte} {m : Memory} (h : m.wf = true) (ha : a < 4096) :
    (m.write a v).wf = true :=
  Memory.write_wfFrom h (Nat.zero_le a) ha

/-- A write of several bytes keeps the canonical form. -/
theorem Memory.writeBytes_wf {a : Nat} {bs : List Byte} {m : Memory} (h : m.wf = true) (ha : a + bs.length ≤ 4096) :
    (m.writeBytes a bs).wf = true := by
  induction bs generalizing m a with
  | nil => exact h
  | cons b bs ih =>
    simp only [List.length_cons] at ha
    exact ih (Memory.write_wf h (by omega)) (by omega)

/-- After several bytes are written, an address reads as its byte of the list if it is one of theirs, and as before
otherwise. -/
theorem Memory.read_writeBytes {a : Nat} {bs : List Byte} {m : Memory} (h : m.wf = true)
    (ha : a + bs.length ≤ 4096) (a' : Nat) :
    (m.writeBytes a bs).read a' = if a ≤ a' ∧ a' < a + bs.length then bs.getD (a' - a) 0 else m.read a' := by
  induction bs generalizing m a with
  | nil =>
    have : ¬ (a ≤ a' ∧ a' < a) := by omega
    simp [Memory.writeBytes, this]
  | cons b bs ih =>
    simp only [List.length_cons] at ha ⊢
    simp only [Memory.writeBytes]
    rw [ih (Memory.write_wf h (by omega)) (by omega), Memory.read_write h]
    by_cases h1 : a' = a
    · subst h1
      simp
    · by_cases h2 : a + 1 ≤ a' ∧ a' < a + 1 + bs.length
      · have h3 : a ≤ a' ∧ a' < a + (bs.length + 1) := by omega
        have h4 : a' - a = (a' - (a + 1)) + 1 := by omega
        simp only [h2, h3, if_true, and_self]
        rw [h4, List.getD_cons_succ]
      · have h3 : ¬ (a ≤ a' ∧ a' < a + (bs.length + 1)) := by omega
        simp only [h2, h3, if_false, h1]

/-- The bytes read from `a` on are the reads at the addresses from `a` on. -/
theorem Memory.readBytes_getElem (m : Memory) (a len k : Nat) (h : k < (m.readBytes a len).length) :
    (m.readBytes a len)[k] = m.read (a + k) := by
  induction len generalizing a k with
  | zero => simp [Memory.readBytes] at h
  | succ len ih =>
    cases k with
    | zero => simp [Memory.readBytes]
    | succ k =>
      simp only [Memory.readBytes, List.getElem_cons_succ]
      rw [ih]
      congr 1
      omega

@[simp] theorem Memory.readBytes_length (m : Memory) (a len : Nat) : (m.readBytes a len).length = len := by
  induction len generalizing a with
  | zero => rfl
  | succ len ih => simp [Memory.readBytes, ih]

/-- The memory of the reset state is canonical. -/
theorem Memory.reset_wf : State.reset.memory.wf = true := rfl

end Sys2Proof.Machine
end

