-- ==== Sys2Proof/Laws/PerInstr.lean ====
section
/-! SUPPORT. Family EncodeClass: the class nibble of every instruction's word is the one the opcode map gives it (spec R102), one
lemma for each constructor. -/

namespace Sys2Proof.Laws

/-- The class nibble the opcode map gives an instruction (spec R102). -/
def classNibble : Instr → Nat
  | .cls => 0x0
  | .ret => 0x0
  | .jp _ => 0x1
  | .call _ => 0x2
  | .seByte _ _ => 0x3
  | .sneByte _ _ => 0x4
  | .seReg _ _ => 0x5
  | .ldByte _ _ => 0x6
  | .addByte _ _ => 0x7
  | .ldReg _ _ => 0x8
  | .orReg _ _ => 0x8
  | .andReg _ _ => 0x8
  | .xorReg _ _ => 0x8
  | .addReg _ _ => 0x8
  | .subReg _ _ => 0x8
  | .shr _ _ => 0x8
  | .subnReg _ _ => 0x8
  | .shl _ _ => 0x8
  | .sneReg _ _ => 0x9
  | .ldI _ => 0xa
  | .jpV0 _ => 0xb
  | .rnd _ _ => 0xc
  | .drw _ _ _ => 0xd
  | .skp _ => 0xe
  | .sknp _ => 0xe
  | .ldVxDT _ => 0xf
  | .ldVxKey _ => 0xf
  | .ldDTVx _ => 0xf
  | .ldSTVx _ => 0xf
  | .addIVx _ => 0xf
  | .ldFVx _ => 0xf
  | .ldBVx _ => 0xf
  | .ldMemVx _ => 0xf
  | .ldVxMem _ => 0xf

/-- The word of the instruction has its class nibble in bits 15:12. -/
def EncodeClass.Statement (i : Instr) : Prop := (classField (encode i)).toNat = classNibble i

theorem EncodeClass.cls : EncodeClass.Statement .cls := by
  rfl

theorem EncodeClass.ret : EncodeClass.Statement .ret := by
  rfl

theorem EncodeClass.jp (nnn : Addr12) : EncodeClass.Statement (.jp nnn) := by
  unfold EncodeClass.Statement
  have := nnn.isLt
  rw [classField_toNat, encode, encodeNNN_toNat (h := by decide)]
  simp only [classNibble]
  omega

theorem EncodeClass.call (nnn : Addr12) : EncodeClass.Statement (.call nnn) := by
  unfold EncodeClass.Statement
  have := nnn.isLt
  rw [classField_toNat, encode, encodeNNN_toNat (h := by decide)]
  simp only [classNibble]
  omega

theorem EncodeClass.seByte (x : RegNum) (nn : Byte) : EncodeClass.Statement (.seByte x nn) := by
  unfold EncodeClass.Statement
  have := nn.isLt
  rw [classField_toNat, encode, encodeXNN_toNat (h := by decide)]
  simp only [classNibble]
  omega

theorem EncodeClass.sneByte (x : RegNum) (nn : Byte) : EncodeClass.Statement (.sneByte x nn) := by
  unfold EncodeClass.Statement
  have := nn.isLt
  rw [classField_toNat, encode, encodeXNN_toNat (h := by decide)]
  simp only [classNibble]
  omega

theorem EncodeClass.seReg (x : RegNum) (y : RegNum) : EncodeClass.Statement (.seReg x y) := by
  unfold EncodeClass.Statement
  rw [classField_toNat, encode, encodeXYN_toNat (h := by decide)]
  simp only [classNibble]
  omega

theorem EncodeClass.ldByte (x : RegNum) (nn : Byte) : EncodeClass.Statement (.ldByte x nn) := by
  unfold EncodeClass.Statement
  have := nn.isLt
  rw [classField_toNat, encode, encodeXNN_toNat (h := by decide)]
  simp only [classNibble]
  omega

theorem EncodeClass.addByte (x : RegNum) (nn : Byte) : EncodeClass.Statement (.addByte x nn) := by
  unfold EncodeClass.Statement
  have := nn.isLt
  rw [classField_toNat, encode, encodeXNN_toNat (h := by decide)]
  simp only [classNibble]
  omega

theorem EncodeClass.ldReg (x : RegNum) (y : RegNum) : EncodeClass.Statement (.ldReg x y) := by
  unfold EncodeClass.Statement
  rw [classField_toNat, encode, encodeXYN_toNat (h := by decide)]
  simp only [classNibble]
  omega

theorem EncodeClass.orReg (x : RegNum) (y : RegNum) : EncodeClass.Statement (.orReg x y) := by
  unfold EncodeClass.Statement
  rw [classField_toNat, encode, encodeXYN_toNat (h := by decide)]
  simp only [classNibble]
  omega

theorem EncodeClass.andReg (x : RegNum) (y : RegNum) : EncodeClass.Statement (.andReg x y) := by
  unfold EncodeClass.Statement
  rw [classField_toNat, encode, encodeXYN_toNat (h := by decide)]
  simp only [classNibble]
  omega

theorem EncodeClass.xorReg (x : RegNum) (y : RegNum) : EncodeClass.Statement (.xorReg x y) := by
  unfold EncodeClass.Statement
  rw [classField_toNat, encode, encodeXYN_toNat (h := by decide)]
  simp only [classNibble]
  omega

theorem EncodeClass.addReg (x : RegNum) (y : RegNum) : EncodeClass.Statement (.addReg x y) := by
  unfold EncodeClass.Statement
  rw [classField_toNat, encode, encodeXYN_toNat (h := by decide)]
  simp only [classNibble]
  omega

theorem EncodeClass.subReg (x : RegNum) (y : RegNum) : EncodeClass.Statement (.subReg x y) := by
  unfold EncodeClass.Statement
  rw [classField_toNat, encode, encodeXYN_toNat (h := by decide)]
  simp only [classNibble]
  omega

theorem EncodeClass.shr (x : RegNum) (y : RegNum) : EncodeClass.Statement (.shr x y) := by
  unfold EncodeClass.Statement
  rw [classField_toNat, encode, encodeXYN_toNat (h := by decide)]
  simp only [classNibble]
  omega

theorem EncodeClass.subnReg (x : RegNum) (y : RegNum) : EncodeClass.Statement (.subnReg x y) := by
  unfold EncodeClass.Statement
  rw [classField_toNat, encode, encodeXYN_toNat (h := by decide)]
  simp only [classNibble]
  omega

theorem EncodeClass.shl (x : RegNum) (y : RegNum) : EncodeClass.Statement (.shl x y) := by
  unfold EncodeClass.Statement
  rw [classField_toNat, encode, encodeXYN_toNat (h := by decide)]
  simp only [classNibble]
  omega

theorem EncodeClass.sneReg (x : RegNum) (y : RegNum) : EncodeClass.Statement (.sneReg x y) := by
  unfold EncodeClass.Statement
  rw [classField_toNat, encode, encodeXYN_toNat (h := by decide)]
  simp only [classNibble]
  omega

theorem EncodeClass.ldI (nnn : Addr12) : EncodeClass.Statement (.ldI nnn) := by
  unfold EncodeClass.Statement
  have := nnn.isLt
  rw [classField_toNat, encode, encodeNNN_toNat (h := by decide)]
  simp only [classNibble]
  omega

theorem EncodeClass.jpV0 (nnn : Addr12) : EncodeClass.Statement (.jpV0 nnn) := by
  unfold EncodeClass.Statement
  have := nnn.isLt
  rw [classField_toNat, encode, encodeNNN_toNat (h := by decide)]
  simp only [classNibble]
  omega

theorem EncodeClass.rnd (x : RegNum) (nn : Byte) : EncodeClass.Statement (.rnd x nn) := by
  unfold EncodeClass.Statement
  have := nn.isLt
  rw [classField_toNat, encode, encodeXNN_toNat (h := by decide)]
  simp only [classNibble]
  omega

theorem EncodeClass.drw (x : RegNum) (y : RegNum) (n : Fin 16) : EncodeClass.Statement (.drw x y n) := by
  unfold EncodeClass.Statement
  rw [classField_toNat, encode, encodeXYN_toNat (h := by decide)]
  simp only [classNibble]
  omega

theorem EncodeClass.skp (x : RegNum) : EncodeClass.Statement (.skp x) := by
  unfold EncodeClass.Statement
  rw [classField_toNat, encode, encodeX_toNat (h := by decide)]
  simp only [classNibble]
  omega

theorem EncodeClass.sknp (x : RegNum) : EncodeClass.Statement (.sknp x) := by
  unfold EncodeClass.Statement
  rw [classField_toNat, encode, encodeX_toNat (h := by decide)]
  simp only [classNibble]
  omega

theorem EncodeClass.ldVxDT (x : RegNum) : EncodeClass.Statement (.ldVxDT x) := by
  unfold EncodeClass.Statement
  rw [classField_toNat, encode, encodeX_toNat (h := by decide)]
  simp only [classNibble]
  omega

theorem EncodeClass.ldVxKey (x : RegNum) : EncodeClass.Statement (.ldVxKey x) := by
  unfold EncodeClass.Statement
  rw [classField_toNat, encode, encodeX_toNat (h := by decide)]
  simp only [classNibble]
  omega

theorem EncodeClass.ldDTVx (x : RegNum) : EncodeClass.Statement (.ldDTVx x) := by
  unfold EncodeClass.Statement
  rw [classField_toNat, encode, encodeX_toNat (h := by decide)]
  simp only [classNibble]
  omega

theorem EncodeClass.ldSTVx (x : RegNum) : EncodeClass.Statement (.ldSTVx x) := by
  unfold EncodeClass.Statement
  rw [classField_toNat, encode, encodeX_toNat (h := by decide)]
  simp only [classNibble]
  omega

theorem EncodeClass.addIVx (x : RegNum) : EncodeClass.Statement (.addIVx x) := by
  unfold EncodeClass.Statement
  rw [classField_toNat, encode, encodeX_toNat (h := by decide)]
  simp only [classNibble]
  omega

theorem EncodeClass.ldFVx (x : RegNum) : EncodeClass.Statement (.ldFVx x) := by
  unfold EncodeClass.Statement
  rw [classField_toNat, encode, encodeX_toNat (h := by decide)]
  simp only [classNibble]
  omega

theorem EncodeClass.ldBVx (x : RegNum) : EncodeClass.Statement (.ldBVx x) := by
  unfold EncodeClass.Statement
  rw [classField_toNat, encode, encodeX_toNat (h := by decide)]
  simp only [classNibble]
  omega

theorem EncodeClass.ldMemVx (x : RegNum) : EncodeClass.Statement (.ldMemVx x) := by
  unfold EncodeClass.Statement
  rw [classField_toNat, encode, encodeX_toNat (h := by decide)]
  simp only [classNibble]
  omega

theorem EncodeClass.ldVxMem (x : RegNum) : EncodeClass.Statement (.ldVxMem x) := by
  unfold EncodeClass.Statement
  rw [classField_toNat, encode, encodeX_toNat (h := by decide)]
  simp only [classNibble]
  omega

end Sys2Proof.Laws
end

