-- ==== Sys2Proof/Machine/Assembly.lean ====
section
/-! DEFINITION. The assembly text of an instruction and of a program's items (spec R106, R107). It is a naming only: the word
governs (PRESUMED, log 31: the spec takes the mnemonics from general knowledge, D19; safe). -/

namespace Sys2Proof.Machine

/-- A hexadecimal digit. -/
def hexDigit (d : Fin 16) : String :=
  ["0", "1", "2", "3", "4", "5", "6", "7", "8", "9", "A", "B", "C", "D", "E", "F"].getD d.val ""

/-- A number as `k` hexadecimal digits. -/
def hexDigits : Nat → Nat → String
  | 0, _     => ""
  | k + 1, v => hexDigits k (v / 16) ++ hexDigit (Fin.ofNat 16 v)

/-- A number as 0x and `k` hexadecimal digits. -/
def hexNumber (k v : Nat) : String := "0x" ++ hexDigits k v

/-- `Vx`: a register named by one hex digit (spec R106). -/
def regText (x : RegNum) : String := "V" ++ hexDigit x

/-- A mnemonic with its operands, the spaces and commas of spec R107. -/
def lineText : String → List String → String
  | m, []        => m
  | m, [a]       => m ++ " " ++ a
  | m, a :: rest => lineText (m ++ " " ++ a ++ ",") rest

/-- The assembly line of an instruction (spec R107). -/
def assemblyText : Instr → String
  | .cls          => lineText "CLS" []
  | .ret          => lineText "RET" []
  | .jp nnn       => lineText "JP" [hexNumber 3 nnn.toNat]
  | .call nnn     => lineText "CALL" [hexNumber 3 nnn.toNat]
  | .seByte x nn  => lineText "SE" [regText x, hexNumber 2 nn.toNat]
  | .sneByte x nn => lineText "SNE" [regText x, hexNumber 2 nn.toNat]
  | .seReg x y    => lineText "SE" [regText x, regText y]
  | .ldByte x nn  => lineText "LD" [regText x, hexNumber 2 nn.toNat]
  | .addByte x nn => lineText "ADD" [regText x, hexNumber 2 nn.toNat]
  | .ldReg x y    => lineText "LD" [regText x, regText y]
  | .orReg x y    => lineText "OR" [regText x, regText y]
  | .andReg x y   => lineText "AND" [regText x, regText y]
  | .xorReg x y   => lineText "XOR" [regText x, regText y]
  | .addReg x y   => lineText "ADD" [regText x, regText y]
  | .subReg x y   => lineText "SUB" [regText x, regText y]
  | .shr x y      => lineText "SHR" [regText x, regText y]
  | .subnReg x y  => lineText "SUBN" [regText x, regText y]
  | .shl x y      => lineText "SHL" [regText x, regText y]
  | .sneReg x y   => lineText "SNE" [regText x, regText y]
  | .ldI nnn      => lineText "LD" ["I", hexNumber 3 nnn.toNat]
  | .jpV0 nnn     => lineText "JP" ["V0", hexNumber 3 nnn.toNat]
  | .rnd x nn     => lineText "RND" [regText x, hexNumber 2 nn.toNat]
  | .drw x y n    => lineText "DRW" [regText x, regText y, hexNumber 1 n.val]
  | .skp x        => lineText "SKP" [regText x]
  | .sknp x       => lineText "SKNP" [regText x]
  | .ldVxDT x     => lineText "LD" [regText x, "DT"]
  | .ldVxKey x    => lineText "LD" [regText x, "K"]
  | .ldDTVx x     => lineText "LD" ["DT", regText x]
  | .ldSTVx x     => lineText "LD" ["ST", regText x]
  | .addIVx x     => lineText "ADD" ["I", regText x]
  | .ldFVx x      => lineText "LD" ["F", regText x]
  | .ldBVx x      => lineText "LD" ["B", regText x]
  | .ldMemVx x    => lineText "LD" ["[I]", regText x]
  | .ldVxMem x    => lineText "LD" [regText x, "[I]"]

/-- The assembly line of an item (spec R107): words with no row and data bytes are written as numbers. -/
def itemText : Item → String
  | .instr i => assemblyText i
  | .word w  => lineText ".word" [hexNumber 4 w.toNat]
  | .byte b  => lineText ".byte" [hexNumber 2 b.toNat]

/-- `SHR Vx` written without `Vy` (spec R107): y is 0. -/
def shrShort (x : RegNum) : Instr := .shr x 0

/-- `SHL Vx` written without `Vy` (spec R107): y is 0. -/
def shlShort (x : RegNum) : Instr := .shl x 0

/-- The item a word is written as (spec R107): its instruction, or `.word` for a word with no row and for a 5xyn or 9xyn
whose n is not 0. -/
def itemOfWord (w : Word) : Item :=
  match decode w with
  | .instr i   => if encode i = w then .instr i else .word w
  | .unknown u => .word u

end Sys2Proof.Machine
end

