-- ==== Sys2Proof/Tests/Slice0.lean ====
section
/-! SUPPORT. The model's own tests: the WellFormed smoke, decoding against words written out from spec/30_encoding.md, one step
at a time against the vectors of spec/95_test_vectors.md (each test cites its vector), and a witness for the
hypotheses of every statement. -/

namespace Sys2Proof.Tests

open Sys2Proof Sys2Proof.Machine Sys2Proof.Claims

/-! ## WellFormed: each check refuses an ill-formed program -/

theorem test_wellFormed_accepts : Program.wellFormed [.instr .cls, .word 0x6005, .byte 1, .byte 2, .instr .ret] = true := by
  decide

theorem test_aligned_refuses_odd_address : Program.alignedFrom 0x200 [.byte 1, .instr .ret] = false := by decide

theorem test_wellFormed_refuses_odd_address : Program.wellFormed [.byte 1, .instr .ret] = false := by decide

theorem size_replicate_byte (n : Nat) : Program.size (List.replicate n (.byte 0)) = n := by
  induction n with
  | zero => rfl
  | succ n ih => simp only [List.replicate_succ, Program.size, ih, Item.size]; omega

/-- An image of exactly 3584 bytes fits (L1-1). -/
theorem test_fits_accepts_full : Program.fits (List.replicate 3584 (.byte 0)) = true := by
  simp only [Program.fits, size_replicate_byte]; decide

/-- An image of 3585 bytes does not (L1-1). -/
theorem test_fits_refuses_too_long : Program.fits (List.replicate 3585 (.byte 0)) = false := by
  simp only [Program.fits, size_replicate_byte]; decide

theorem test_wellFormed_refuses_too_long : Program.wellFormed (List.replicate 3585 (.byte 0)) = false := by
  simp only [Program.wellFormed, test_fits_refuses_too_long, Bool.false_and]

/-! ## Decoding: a word for every constructor, its fields written out in the places of spec R91, R92 -/

/-- Four nibbles as a word, the first the class. -/
def nibbles (c x y n : BitVec 4) : Word := c ++ x ++ y ++ n

theorem test_decode_class0 :
    decode (nibbles 0x0 0x0 0xE 0x0) = .instr .cls ∧ decode (nibbles 0x0 0x0 0xE 0xE) = .instr .ret := by decide

theorem test_decode_jumps :
    decode (nibbles 0x1 0x2 0x0 0x6) = .instr (.jp 0x206) ∧ decode (nibbles 0x2 0x2 0x1 0x0) = .instr (.call 0x210) ∧
    decode (nibbles 0xB 0x1 0x2 0x3) = .instr (.jpV0 0x123) := by decide

theorem test_decode_skips :
    decode (nibbles 0x3 0x3 0x4 0x2) = .instr (.seByte 3 0x42) ∧
    decode (nibbles 0x4 0x3 0x4 0x3) = .instr (.sneByte 3 0x43) ∧
    decode (nibbles 0x5 0xA 0xB 0x0) = .instr (.seReg 0xA 0xB) ∧
    decode (nibbles 0x9 0xA 0xB 0x0) = .instr (.sneReg 0xA 0xB) := by decide

/-- E-6, E-7: n is ignored in classes 5 and 9. -/
theorem test_decode_ignored_nibble :
    decode (nibbles 0x5 0xA 0xB 0x7) = .instr (.seReg 0xA 0xB) ∧
    decode (nibbles 0x9 0xA 0xB 0x1) = .instr (.sneReg 0xA 0xB) := by decide

theorem test_decode_immediates :
    decode (nibbles 0x6 0x2 0x3 0xE) = .instr (.ldByte 2 0x3E) ∧
    decode (nibbles 0x7 0x0 0xF 0xF) = .instr (.addByte 0 0xFF) ∧
    decode (nibbles 0xA 0x3 0x0 0x1) = .instr (.ldI 0x301) ∧
    decode (nibbles 0xC 0x3 0x0 0xF) = .instr (.rnd 3 0x0F) := by decide

theorem test_decode_class8 :
    decode (nibbles 0x8 0x1 0x2 0x0) = .instr (.ldReg 1 2) ∧ decode (nibbles 0x8 0x1 0x2 0x1) = .instr (.orReg 1 2) ∧
    decode (nibbles 0x8 0x1 0x2 0x2) = .instr (.andReg 1 2) ∧ decode (nibbles 0x8 0x1 0x2 0x3) = .instr (.xorReg 1 2) ∧
    decode (nibbles 0x8 0xA 0xB 0x4) = .instr (.addReg 0xA 0xB) ∧
    decode (nibbles 0x8 0x1 0x2 0x5) = .instr (.subReg 1 2) ∧ decode (nibbles 0x8 0x1 0x2 0x6) = .instr (.shr 1 2) ∧
    decode (nibbles 0x8 0x1 0x2 0x7) = .instr (.subnReg 1 2) ∧ decode (nibbles 0x8 0x1 0x2 0xE) = .instr (.shl 1 2) := by
  decide

theorem test_decode_drw_and_keys :
    decode (nibbles 0xD 0x1 0x2 0x3) = .instr (.drw 1 2 3) ∧ decode (nibbles 0xE 0x1 0x9 0xE) = .instr (.skp 1) ∧
    decode (nibbles 0xE 0x1 0xA 0x1) = .instr (.sknp 1) ∧ decode (nibbles 0xF 0x2 0x0 0xA) = .instr (.ldVxKey 2) := by
  decide

theorem test_decode_classF :
    decode (nibbles 0xF 0x1 0x0 0x7) = .instr (.ldVxDT 1) ∧ decode (nibbles 0xF 0x2 0x1 0x5) = .instr (.ldDTVx 2) ∧
    decode (nibbles 0xF 0x3 0x1 0x8) = .instr (.ldSTVx 3) ∧ decode (nibbles 0xF 0x4 0x1 0xE) = .instr (.addIVx 4) ∧
    decode (nibbles 0xF 0x5 0x2 0x9) = .instr (.ldFVx 5) ∧ decode (nibbles 0xF 0x6 0x3 0x3) = .instr (.ldBVx 6) ∧
    decode (nibbles 0xF 0x7 0x5 0x5) = .instr (.ldMemVx 7) ∧ decode (nibbles 0xF 0x8 0x6 0x5) = .instr (.ldVxMem 8) := by
  decide

/-- E-5, E-8, E-9, E-10: rejected by name. -/
theorem test_decode_unknown :
    ([0x00E1, 0x0000, 0x0123, 0x01E0, 0x8008, 0x800F, 0x8AB9, 0xE09F, 0xE000, 0xEFFF, 0xF000, 0xFFFF, 0xF01F, 0xF066] :
      List Word).all (fun w => decode w == .unknown w) = true := by decide

/-- E-12: the first byte is the high one. -/
theorem test_decode_big_endian : wordOfBytes 0x12 0x34 = 0x1234 ∧ decodeTableWord 16 0x1234 = some (.jp 0x234) := by decide

/-- P2's assembly gives P2's image. -/
theorem test_image_of_program :
    programImage [.instr (.ldI 0x300), .instr (.ldByte 0 0xFE), .instr (.ldBVx 0), .instr (.ldVxMem 2), .instr (.jp 0x208)]
      = [0xA3, 0x00, 0x60, 0xFE, 0xF0, 0x33, 0xF2, 0x65, 0x12, 0x08] := by decide

/-- Lines of P1 and P3, and the words that have no line of their own (R107). -/
theorem test_assembly :
    [Instr.ldByte 0 0x05, .call 0x210, .ret, .ldMemVx 1, .drw 2 3 2].map assemblyText =
      ["LD V0, 0x05", "CALL 0x210", "RET", "LD [I], V1", "DRW V2, V3, 0x2"] ∧
    [0x5AB7, 0x0000, 0x120C].map (fun w => itemText (itemOfWord w)) = [".word 0x5AB7", ".word 0x0000", "JP 0x20C"] := by decide

/-! ## One step: the word is placed at PC, as the vectors' A -/

/-- The state a step leaves. -/
def leftBy (r : Result) : Option State :=
  match r with
  | .next t => some t
  | _       => none

/-- The state after one step on a word placed at PC. -/
def after (w : Nat) (s : State) : Option State := leftBy (step (s.withFetchWord 16 w))

/-- The signals of that step. -/
def signalled (w : Nat) (s : State) : Signals := signals (s.withFetchWord 16 w)

/-- The reset state with some registers set. -/
def withRegs (rs : List (RegNum × Byte)) : State := rs.foldl (fun s r => writeReg r.1 r.2 s) State.reset

/-- V1 = a, V2 = b, the setting of the spec's ALU table. -/
def aluState (a b : Byte) : State := withRegs [(1, a), (2, b)]

/-- V1 and VF after a step on an ALU word. -/
def aluAfter (w : Nat) (a b : Byte) : Option (Byte × Byte) := (after w (aluState a b)).map fun t => (readReg t 1, readReg t 0xF)

/-- A state with bytes stored from an address on. -/
def storing (a : Nat) (bs : List Byte) (s : State) : State := setMemory (s.memory.writeBytes a bs) s

/-- S-1: the last word of memory is fetched, and PC stands past it. -/
theorem test_fetch_at_top : (after 0x6001 { State.reset with PC := 0xFFE }).map (fun t => (readReg t 0, t.PC, t.status)) =
    some (1, 0x1000, .running) := by decide

/-- S-2 to S-5: the fetch's faults and their order. -/
theorem test_fetch_faults :
    ([0x1000, 0x0FFF, 0x0201, 0x1001] : List Word).map (fun pc => (leftBy (step { State.reset with PC := pc })).map State.status) =
    [some (.halted .pcOutOfRange), some (.halted .pcOutOfRange), some (.halted .pcMisaligned), some (.halted .pcOutOfRange)] := by
  decide

/-- S-4: an odd PC fetches under the other policy. -/
theorem test_fetch_odd_allowed :
    (leftBy (stepWith { params with oddPcPolicy := .fetch } (storing 0x201 [0x60, 0x07] { State.reset with PC := 0x201 }))).map
      (fun t => (readReg t 0, t.PC)) = some (7, 0x203) := by decide

/-- S-6: an unknown word advances PC, counts DT down and is signalled. -/
theorem test_unknown_word : after 0x0123 { State.reset with DT := 5 } =
      some { (State.reset.withFetchWord 16 0x0123) with DT := 4, PC := 0x202 } ∧
    signalled 0x0123 { State.reset with DT := 5 } = ⟨some 0x0123, false⟩ := by decide

/-- S-7, S-11: Beep where ST was 1, with UnknownOpcode in the same step. -/
theorem test_beep :
    (after 0x6000 { State.reset with DT := 1, ST := 1 }).map (fun t => (t.DT, t.ST)) = some (0, 0) ∧
    signalled 0x6000 { State.reset with DT := 1, ST := 1 } = ⟨none, true⟩ ∧
    signalled 0xFFFF { State.reset with ST := 1 } = ⟨some 0xFFFF, true⟩ ∧ signalled 0x6000 State.reset = ⟨none, false⟩ := by decide

/-- S-9: a fatal step changes only the status, the timers included. -/
theorem test_fatal_keeps_timers : after 0x00EE { State.reset with DT := 5, ST := 5 } =
    some { (State.reset.withFetchWord 16 0x00EE) with DT := 5, ST := 5, status := .halted .stackUnderflow } := by decide

/-- S-10: a halted core ignores the step. -/
theorem test_halted_is_inert : leftBy (step { State.reset with DT := 5, status := .halted .stackUnderflow }) =
    some { State.reset with DT := 5, status := .halted .stackUnderflow } := by decide

/-- D-1, L1-4. -/
theorem test_cls : (after 0x00E0 { State.reset with fb := Vector.replicate 32 0xFF, drawFlag := false }).map
    (fun t => (t.fb, t.drawFlag, t.PC)) = some (blankFb, true, 0x202) := by decide

/-- D-5: glyph 0, bit 7 of each byte the leftmost pixel. -/
theorem test_drw_glyph : (after 0xD005 State.reset).map (fun t => ((t.fb.toList.take 6), readReg t 0xF)) =
    some ([0xF, 0x9, 0x9, 0x9, 0xF, 0], 0) := by decide

/-- D-9: coordinates are read before VF is written. -/
theorem test_drw_reads_old_vf :
    (after 0xDF01 (storing 0x300 [0x80] { withRegs [(0xF, 5), (0, 3)] with I := 0x300 })).map
      (fun t => (pixel t.fb 3 5, readReg t 0xF)) = some (true, 0) := by decide

/-- D-7: columns wrap, or are clipped under the other edge. -/
theorem test_drw_edges :
    ([.wrap, .clip] : List DrawEdge).map (fun e =>
      (leftBy (execWith { params with drawEdge := e } (.drw 0 1 1)
        (storing 0x300 [0xFF] { withRegs [(0, 62)] with I := 0x300 }))).map (fun t => t.fb.toList.take 2)) =
    [some [0xC00000000000003F, 0], some [0xC000000000000000, 0]] := by decide

/-- D-6, D-3: a set pixel is unset and collides; a row beyond memory halts. -/
theorem test_drw_collision_and_fault :
    (after 0xD001 (storing 0x300 [0xC0] { State.reset with I := 0x300, fb := blankFb.set 0 1 })).map
      (fun t => (t.fb.toList.take 2, readReg t 0xF)) = some ([2, 0], 1) ∧
    (after 0xD013 { State.reset with I := 0xFFE }).map State.status = some (.halted .memoryOutOfRange) := by decide

/-- C-1, C-3. -/
theorem test_call :
    (after 0x2210 { State.reset with PC := 0x204 }).map (fun t => (t.stack[0], t.SP, t.PC)) = some (0x206, 1, 0x210) ∧
    (after 0x2400 { State.reset with PC := 0x300, SP := 15 }).map (fun t => (t.stack[15], t.SP, t.PC)) =
      some (0x302, 16, 0x400) := by decide

/-- C-4. -/
theorem test_call_overflow : (after 0x2400 { State.reset with PC := 0x300, SP := 16 }).map (fun t => (t.status, t.SP, t.PC)) =
    some (.halted .stackOverflow, 16, 0x300) := by decide

/-- C-2: the popped slot keeps its value. -/
theorem test_ret : (after 0x00EE { State.reset with SP := 1, stack := State.reset.stack.set 0 0x206 }).map
    (fun t => (t.SP, t.PC, t.stack[0])) = some (0, 0x206, 0x206) := by decide

/-- C-5. -/
theorem test_ret_underflow : (after 0x00EE State.reset).map State.status = some (.halted .stackUnderflow) := by decide

/-- C-7, C-8: any target is assigned. -/
theorem test_jp : [0x1FFF, 0x1301].map (fun w => (after w State.reset).map State.PC) = [some 0xFFF, some 0x301] := by decide

/-- C-15, C-17. -/
theorem test_jpV0 : (after 0xB300 (withRegs [(0, 4)])).map State.PC = some 0x304 ∧
    (after 0xBFFF (withRegs [(0, 0xFF)])).map State.PC = some 0x10FE := by decide

/-- C-9. -/
theorem test_seByte : [0x3342, 0x3343].map (fun w => (after w (withRegs [(3, 0x42)])).map State.PC) =
    [some 0x204, some 0x202] := by decide

/-- C-10. -/
theorem test_sneByte : [0x4342, 0x4300].map (fun w => (after w (withRegs [(3, 0x42)])).map State.PC) =
    [some 0x202, some 0x204] := by decide

/-- C-11, C-12. -/
theorem test_seReg : [0x5120, 0x5127].map (fun w => (after w (aluState 7 7)).map State.PC) = [some 0x204, some 0x204] ∧
    (after 0x5120 (aluState 7 8)).map State.PC = some 0x202 := by decide

/-- C-12, C-13. -/
theorem test_sneReg : [0x9120, 0x9110].map (fun w => (after w (aluState 7 8)).map State.PC) = [some 0x204, some 0x202] := by
  decide

/-- A-27. -/
theorem test_ldByte : (after 0x600A State.reset).map (fun t => readReg t 0) = some 0x0A := by decide

/-- A-28, A-29. -/
theorem test_addByte :
    (after 0x7001 (withRegs [(0, 0xFF), (0xF, 1)])).map (fun t => (readReg t 0, readReg t 0xF)) = some (0, 1) ∧
    (after 0x7FFF (withRegs [(0xF, 1)])).map (fun t => readReg t 0xF) = some 0 := by decide

/-- A-26. -/
theorem test_ldReg : aluAfter 0x8120 0x55 0x33 = some (0x33, 0) := by decide

/-- A-23. -/
theorem test_orReg : aluAfter 0x8121 0xF0 0x0F = some (0xFF, 0) := by decide

/-- A-24. -/
theorem test_andReg : aluAfter 0x8122 0xF3 0x3F = some (0x33, 0) := by decide

/-- A-25. -/
theorem test_xorReg : aluAfter 0x8123 0xFF 0x0F = some (0xF0, 0) := by decide

/-- A-1, A-2, A-3. -/
theorem test_addReg : aluAfter 0x8124 0xFF 0x01 = some (0, 1) ∧ aluAfter 0x8124 0x01 0x01 = some (2, 0) ∧
    aluAfter 0x8124 0x80 0x7F = some (0xFF, 0) := by decide

/-- A-30: with x = 0xF, the flag survives, or the result under the other order. -/
theorem test_addReg_to_vf : (after 0x8F14 (withRegs [(0xF, 0xFF), (1, 1)])).map (fun t => readReg t 0xF) = some 1 ∧
    (leftBy (stepWith { params with vfWriteOrder := .flagFirst }
      ((withRegs [(0xF, 0xFF), (1, 1)]).withFetchWord 16 0x8F14))).map (fun t => readReg t 0xF) = some 0 := by decide

/-- A-6, A-7, A-8. -/
theorem test_subReg : aluAfter 0x8125 5 3 = some (2, 1) ∧ aluAfter 0x8125 3 5 = some (0xFE, 0) ∧
    aluAfter 0x8125 5 5 = some (0, 0) := by decide

/-- A-11, A-12, A-13. -/
theorem test_subnReg : aluAfter 0x8127 3 5 = some (2, 1) ∧ aluAfter 0x8127 5 3 = some (0xFE, 0) ∧
    aluAfter 0x8127 7 7 = some (0, 0) := by decide

/-- A-14, A-18, A-35. -/
theorem test_shr : aluAfter 0x8126 0x05 0x80 = some (2, 1) ∧ aluAfter 0x8126 0x80 1 = some (0x40, 0) ∧
    (leftBy (stepWith { params with shiftSource := .vy } ((aluState 0x10 0x03).withFetchWord 16 0x8126))).map
      (fun t => (readReg t 1, readReg t 0xF)) = some (1, 1) := by decide

/-- A-19, A-21, A-36. -/
theorem test_shl : aluAfter 0x812E 0x81 0 = some (2, 1) ∧ aluAfter 0x812E 0x7F 0xFF = some (0xFE, 0) ∧
    (leftBy (stepWith { params with shiftSource := .vy } ((aluState 0x01 0x80).withFetchWord 16 0x812E))).map
      (fun t => (readReg t 1, readReg t 0xF)) = some (0, 1) := by decide

/-- A-38: the draw is free, but the mask 0 leaves nothing of it. -/
theorem test_rnd : (leftBy (exec (.rnd 3 0) State.reset)).map (fun t => t.draws) = some 1 ∧
    ∃ t, exec (.rnd 3 0) State.reset = .next t ∧ readReg t 3 = 0 :=
  ⟨rfl, _, rfl, BitVec.zero_and⟩

/-- M-1. -/
theorem test_ldI : (after 0xA300 State.reset).map State.I = some 0x300 := by decide

/-- M-2, M-3, M-4. -/
theorem test_addIVx :
    ([(0xFFF, 1), (0x200, 0x10), (0xFFFF, 1)] : List (Word × Byte)).map (fun q =>
      (after 0xF01E { withRegs [(0, q.2)] with I := q.1 }).map (fun t => (t.I, readReg t 0xF))) =
    [some (0x1000, 1), some (0x210, 0), some (0, 1)] := by decide

/-- M-5: the old VF is added; M-2 under mask12. -/
theorem test_addIVx_vf_and_mask :
    (after 0xFF1E { withRegs [(0xF, 1)] with I := 0xFFE }).map (fun t => (t.I, readReg t 0xF)) = some (0xFFF, 0) ∧
    (leftBy (execWith { params with iAddMask := .mask12 } (.addIVx 0) { withRegs [(0, 1)] with I := 0xFFF })).map
      (fun t => (t.I, readReg t 0xF)) = some (0, 1) := by decide

/-- M-7, M-10. -/
theorem test_ldFVx : ([0x0A, 0xFF] : List Byte).map (fun v => (after 0xF029 (withRegs [(0, v)])).map State.I) =
    [some 0x32, some 0x4FB] := by decide

/-- M-11, M-14. -/
theorem test_ldBVx :
    (after 0xF033 { withRegs [(0, 156)] with I := 0x300 }).map (fun t => (t.memory.readBytes 0x300 3, t.I)) =
      some ([1, 5, 6], 0x300) ∧
    (after 0xF033 { withRegs [(0, 9)] with I := 0xFFD }).map (fun t => t.memory.readBytes 0xFFD 3) = some [0, 0, 9] := by decide

/-- M-15. -/
theorem test_ldBVx_fault : (after 0xF033 { withRegs [(0, 9)] with I := 0xFFE }).map (fun t => (t.status, t.memory)) =
    some (.halted .memoryOutOfRange, (State.reset.withFetchWord 16 0xF033).memory) := by decide

/-- M-16, M-19. -/
theorem test_ldMemVx :
    (after 0xF155 { withRegs [(0, 0xF0), (1, 0x81)] with I := 0x300 }).map (fun t => (t.memory.readBytes 0x300 3, t.I)) =
      some ([0xF0, 0x81, 0], 2) ∧
    (after 0xF055 { withRegs [(0, 7)] with I := 0xFFF }).map (fun t => (t.memory.read 0xFFF, t.I)) = some (7, 1) := by decide

/-- M-18. -/
theorem test_ldMemVx_fault : (after 0xFF55 { State.reset with I := 0xFF1 }).map State.status =
    some (.halted .memoryOutOfRange) := by decide

/-- M-20. -/
theorem test_ldVxMem : (after 0xF265 (storing 0x300 [1, 5, 6, 9] { State.reset with I := 0x300 })).map
    (fun t => ([0, 1, 2, 3].map (readReg t), t.I)) = some ([1, 5, 6, 0], 3) := by decide

/-- M-22. -/
theorem test_ldVxMem_fault : (after 0xF065 { State.reset with I := 0x1000 }).map State.status =
    some (.halted .memoryOutOfRange) := by decide

/-- The reset state with V1 set and one key pressed. -/
def keyState (v : Byte) (k : Fin 16) : State := setKey k true (withRegs [(1, v)])

/-- K-1, K-2. -/
theorem test_skp : ([7, 8] : List (Fin 16)).map (fun k => (after 0xE19E (keyState 7 k)).map State.PC) =
    [some 0x204, some 0x202] := by decide

/-- K-3, K-4. -/
theorem test_sknp : ([8, 7] : List (Fin 16)).map (fun k => (after 0xE1A1 (keyState 7 k)).map State.PC) =
    [some 0x204, some 0x202] := by decide

/-- K-5. -/
theorem test_key_fault : [0xE19E, 0xE1A1].map (fun w => (after w (keyState 0x10 0)).map State.status) =
    [some (.halted .keyIndexOutOfRange), some (.halted .keyIndexOutOfRange)] := by decide

/-- K-6, K-8: the lowest pressed key. -/
theorem test_ldVxKey : (after 0xF20A (setKey 3 true (setKey 9 true State.reset))).map (fun t => (readReg t 2, t.PC)) =
      some (3, 0x202) ∧
    (after 0xFF0A (setKey 0xF true State.reset)).map (fun t => readReg t 0xF) = some 0xF := by decide

/-- K-7: the wait repeats the instruction. -/
theorem test_ldVxKey_waits : (after 0xF20A { withRegs [(2, 0x55)] with DT := 4 }).map
    (fun t => (t.PC, readReg t 2, t.DT)) = some (0x200, 0x55, 3) := by decide

/-- K-9. -/
theorem test_ldVxDT : (after 0xF107 { State.reset with DT := 2 }).map (fun t => (readReg t 1, t.DT)) = some (2, 1) := by decide

/-- K-11, K-12. -/
theorem test_ldDTVx : (after 0xF015 (withRegs [(0, 3)])).map State.DT = some 2 ∧
    (after 0xF015 { State.reset with DT := 9 }).map State.DT = some 0 := by decide

/-- K-13, K-15. -/
theorem test_ldSTVx : (after 0xF018 (withRegs [(0, 1)])).map State.ST = some 0 ∧
    (signalled 0xF018 (withRegs [(0, 1)])).beep = true ∧
    (after 0xF018 { withRegs [(0, 5)] with ST := 1 }).map State.ST = some 4 ∧
    (signalled 0xF018 { withRegs [(0, 5)] with ST := 1 }).beep = false := by decide

/-! ## The ports -/

/-- The session and the replies of a sequence of port calls. -/
def calls (cs : List PortCall) : Option (Session × List PortReply) :=
  match callPorts cs .beforeInitialize with
  | .next q => some q
  | _       => none

/-- H-1, H-9. -/
theorem test_drawFlag_once : (calls [.init, .consumeDrawFlag, .consumeDrawFlag]).map (·.2) =
    some [.done, .drawFlag true, .drawFlag false] := by decide

/-- H-2, H-3. -/
theorem test_load_replies :
    calls [.init, .loadProgram (.bytes [])] = some (.initialized false State.reset, [.done, .loaded .ok]) ∧
    calls [.init, .loadProgram .readFailure] =
      some (.initialized false { State.reset with status := .halted .ioFailure }, [.done, .loaded .ioFailure]) := by decide

/-- H-4: a shorter second image leaves the rest of the first. -/
theorem test_load_overlay : calls [.init, .loadProgram (.bytes [0x12, 0x00]), .loadProgram (.bytes [0xAB])] =
    some (.initialized false (storing 0x200 [0xAB, 0x00] State.reset), [.done, .loaded .ok, .loaded .ok]) := by decide

/-- H-5, H-6: refused. -/
theorem test_refused_calls :
    calls [.init, .step, .loadProgram (.bytes [1])] = none ∧ calls [.init, .setKey 16 true] = none ∧ calls [.step] = none := by
  decide

/-- H-7: keys are written while halted too. -/
theorem test_setKey_halted : (calls [.init, .loadProgram .readFailure, .setKey 7 true]).map (·.1) =
    some (.initialized false (setKey 7 true { State.reset with status := .halted .ioFailure })) := by decide

/-- H-8: initialize ends a halt. -/
theorem test_initialize_ends_halt : (calls [.init, .loadProgram .readFailure, .init]).map (·.1) =
    some (.initialized false State.reset) := by decide

/-! ## Witnesses: for each statement with hypotheses, a concrete input that meets them, at the edges of each clause -/

/-- The state a meaning or a step leaves (every one of these answers a next state). -/
def got (r : Result) : State :=
  match r with
  | .next t => t
  | _       => State.reset

/-- The reset state with a word at PC. -/
def fetching (w : Nat) : State := State.reset.withFetchWord 16 w

/-- The reset state with a word at the last address a fetch may read. -/
def fetchingTop (w : Nat) : State := { State.reset with PC := 4094 }.withFetchWord 16 w

theorem canFetch_fetching (w : Nat) : CanFetch (fetching w) := by
  have h : (fetching w).PC = 0x200 := rfl
  exact ⟨rfl, by rw [h]; decide, by rw [h]; decide⟩

theorem canFetch_fetchingTop (w : Nat) : CanFetch (fetchingTop w) := by
  have h : (fetchingTop w).PC = 4094 := rfl
  exact ⟨rfl, by rw [h]; decide, by rw [h]; decide⟩

theorem witness_EncodeDecodeRoundTrip : decode 0x5AB7 = .instr (.seReg 0xA 0xB) ∧ decode 0xD123 = .instr (.drw 1 2 3) := by
  decide

theorem witness_DecoderIsOpcodeMap :
    (∃ r ∈ opcodeRows, r.selects 0x00EE = true) ∧ (∃ r ∈ opcodeRows, r.selects 0xFF65 = true) ∧
    (∀ r ∈ opcodeRows, r.selects 0x00E1 = false) := by decide

theorem witness_StepRunsDecodedInstruction :
    (CanFetch (fetchingTop 0x6001) ∧ FetchesTo (fetchingTop 0x6001) (.instr (.ldByte 0 1)) ∧
      ∃ t, exec (.ldByte 0 1) { fetchingTop 0x6001 with PC := (fetchingTop 0x6001).PC + 2 } = .next t ∧ t.status = .running) ∧
    (CanFetch (fetching 0x00EE) ∧ FetchesTo (fetching 0x00EE) (.instr .ret) ∧
      ∃ t, exec .ret { fetching 0x00EE with PC := (fetching 0x00EE).PC + 2 } = .next t ∧
        t.status = .halted .stackUnderflow) :=
  ⟨⟨canFetch_fetchingTop _, by unfold FetchesTo; decide, _, rfl, rfl⟩,
   ⟨canFetch_fetching _, by unfold FetchesTo; decide, _, rfl, rfl⟩⟩

theorem witness_FetchIsBigEndianAndAdvances :
    CanFetch (fetching 0x1206) ∧ decode 0x1206 = .instr (.jp 0x206) ∧
    CanFetch (fetchingTop 0x0123) ∧ decode 0x0123 = .unknown 0x0123 :=
  ⟨canFetch_fetching _, by decide, canFetch_fetchingTop _, by decide⟩

theorem witness_UnknownOpcodeIsNotTerminal :
    CanFetch (fetchingTop 0x0123) ∧ FetchesTo (fetchingTop 0x0123) (.unknown 0x0123) :=
  ⟨canFetch_fetchingTop _, by unfold FetchesTo; decide⟩

theorem witness_BadFetchAddressHalts :
    State.reset.status = .running ∧ (∃ pc : Word, pc = 4095 ∧ 4094 < pc.toNat) ∧
    (∃ pc : Word, pc = 4096 ∧ 4094 < pc.toNat) ∧ (∃ pc : Word, pc = 4093 ∧ pc.toNat ≤ 4094 ∧ pc.toNat % 2 = 1) ∧
    (∃ pc : Word, pc = 1 ∧ pc.toNat ≤ 4094 ∧ pc.toNat % 2 = 1) ∧ params.oddPcPolicy = .fault ∧
    { params with oddPcPolicy := .fetch }.oddPcPolicy = .fetch ∧
    FetchesTo (storing 4093 [0x60, 0x07] { State.reset with PC := 4093 }) (.instr (.ldByte 0 7)) ∧
    FetchesTo (storing 1 [0x01, 0x23] { State.reset with PC := 1 }) (.unknown 0x0123) :=
  ⟨rfl, ⟨_, rfl, by decide⟩, ⟨_, rfl, by decide⟩, ⟨_, rfl, by decide⟩, ⟨_, rfl, by decide⟩, rfl, rfl,
   by unfold FetchesTo; decide, by unfold FetchesTo; decide⟩

theorem witness_HaltedCoreIsInert :
    { State.reset with status := .halted .pcMisaligned }.status = .halted .pcMisaligned := rfl

theorem witness_FatalStepsArePrecise :
    (fetching 0x00EE).status = .running ∧ step (fetching 0x00EE) = .next (got (step (fetching 0x00EE))) ∧
    (got (step (fetching 0x00EE))).status = .halted .stackUnderflow := ⟨rfl, rfl, rfl⟩

/-- Each condition at the least value that raises it, and its neighbour that does not. -/
theorem witness_InstructionsHaltExactlyOnTheirCause :
    fatalCause (.call 0) { State.reset with SP := 16 } = some .stackOverflow ∧
    fatalCause (.call 0) { State.reset with SP := 15 } = none ∧
    fatalCause .ret State.reset = some .stackUnderflow ∧ fatalCause .ret { State.reset with SP := 1 } = none ∧
    fatalCause (.drw 0 0 1) { State.reset with I := 0x1000 } = some .memoryOutOfRange ∧
    fatalCause (.drw 0 0 1) { State.reset with I := 0xFFF } = none ∧
    fatalCause (.drw 0 0 0) { State.reset with I := 0xFFFF } = none ∧
    fatalCause (.ldBVx 0) { State.reset with I := 0xFFE } = some .memoryOutOfRange ∧
    fatalCause (.ldBVx 0) { State.reset with I := 0xFFD } = none ∧
    fatalCause (.ldMemVx 0xF) { State.reset with I := 0xFF1 } = some .memoryOutOfRange ∧
    fatalCause (.ldMemVx 0xF) { State.reset with I := 0xFF0 } = none ∧
    fatalCause (.ldVxMem 0) { State.reset with I := 0x1000 } = some .memoryOutOfRange ∧
    fatalCause (.ldVxMem 0) { State.reset with I := 0xFFF } = none ∧
    fatalCause (.skp 1) (keyState 16 0) = some .keyIndexOutOfRange ∧ fatalCause (.skp 1) (keyState 15 0) = none ∧
    fatalCause (.sknp 1) (keyState 16 0) = some .keyIndexOutOfRange ∧ fatalCause (.sknp 1) (keyState 15 0) = none ∧
    State.reset.status = .running := by decide

/-- The reset state meets the invariant's premise (the statement itself is ResetIsLegal). -/
theorem witness_StepKeepsLegal :
    (State.reset.memory.wf = true ∧ State.reset.PC.toNat ≤ 0x10FE ∧ (∀ k : Fin 16, State.reset.stack[k.val].toNat % 2 = 0) ∧
      ∀ k : Fin 16, State.reset.stack[k.val].toNat ≤ 4096) ∧
    step State.reset = .next (got (step State.reset)) := ⟨by decide, rfl⟩

theorem witness_EveryReachedSessionIsLegal :
    ∃ ses rs, callPorts [.init, .loadProgram (.bytes [0x60, 0x05]), .step, .setKey 15 true] .beforeInitialize =
      .next (ses, rs) := ⟨_, _, rfl⟩

theorem witness_RegisterWritersAreTheListed :
    exec (.drw 0 1 0) State.reset = .next (got (exec (.drw 0 1 0) State.reset)) ∧ writesReg (.drw 0 1 0) 0 = false ∧
    exec (.ldVxMem 0xE) State.reset = .next (got (exec (.ldVxMem 0xE) State.reset)) ∧
    writesReg (.ldVxMem 0xE) 0xF = false := ⟨rfl, by decide, rfl, by decide⟩

/-- The bytes beside those stored. -/
theorem witness_MemoryFrame :
    exec (.ldMemVx 1) { State.reset with I := 0x300 } = .next (got (exec (.ldMemVx 1) { State.reset with I := 0x300 })) ∧
    storesTo (.ldMemVx 1) { State.reset with I := 0x300 } 0x2FF = false ∧
    storesTo (.ldMemVx 1) { State.reset with I := 0x300 } 0x301 = true ∧
    storesTo (.ldMemVx 1) { State.reset with I := 0x300 } 0x302 = false ∧
    storesTo (.ldBVx 1) { State.reset with I := 0x300 } 0x303 = false ∧ storesTo .cls State.reset 0 = false :=
  ⟨rfl, by decide⟩

theorem witness_OtherStateFrame :
    exec (.ldByte 0 1) State.reset = .next (got (exec (.ldByte 0 1) State.reset)) ∧ writesI (.ldByte 0 1) = false ∧
    writesPC (.ldByte 0 1) = false ∧ usesStack (.ldByte 0 1) = false ∧ writesFb (.ldByte 0 1) = false ∧
    (∀ x, Instr.ldByte 0 1 ≠ .ldDTVx x) ∧ (∀ x, Instr.ldByte 0 1 ≠ .ldSTVx x) ∧ (∀ x nn, Instr.ldByte 0 1 ≠ .rnd x nn) :=
  ⟨rfl, by decide, by decide, by decide, by decide, by simp, by simp, by simp⟩

theorem witness_OnlyKeyInstructionsReadKeys :
    exec (.rnd 0 0xFF) State.reset = .next (got (exec (.rnd 0 0xFF) State.reset)) ∧ readsKeys (.rnd 0 0xFF) = false ∧
    State.reset.keys ≠ Vector.replicate 16 true := ⟨rfl, by decide, by decide⟩

theorem witness_SoundTimerAndDrawFlagAreNeverRead :
    exec (.ldSTVx 0) State.reset = .next (got (exec (.ldSTVx 0) State.reset)) := rfl

/-- A return with a stale slot above, and a full stack, where no slot is stale. -/
theorem witness_StaleStackSlotsAreUnobservable :
    (∀ k : Fin 16, k.val < { State.reset with SP := 1 }.SP.val →
      (State.reset.stack.set 1 0x300)[k.val] = { State.reset with SP := 1 }.stack[k.val]) ∧
    State.reset.stack.set 1 0x300 ≠ State.reset.stack ∧
    step { fetching 0x00EE with SP := 1 } = .next (got (step { fetching 0x00EE with SP := 1 })) ∧
    step { fetching 0x00EE with SP := 16 } = .next (got (step { fetching 0x00EE with SP := 16 })) :=
  ⟨by decide, by decide, rfl, rfl⟩

/-- A sprite that ends at the last byte, and one without rows at an I beyond memory. -/
theorem witness_DrwInvertsCoveredPixels :
    ((15 : Fin 16) = 0 ∨ (0xFF1 : Word).toNat + (15 : Fin 16).val ≤ 4096) ∧
    ((0 : Fin 16) = 0 ∨ (0xFFFF : Word).toNat + (0 : Fin 16).val ≤ 4096) := by decide

/-- Two draws of glyph 0 on a clear grid; and over a grid whose every pixel is set, where the second does not collide. -/
theorem witness_DrawingTwiceRestores :
    let t := got (exec (.drw 0 1 5) State.reset)
    (State.reset.I.toNat + (5 : Fin 16).val ≤ 4096) ∧ exec (.drw 0 1 5) State.reset = .next t ∧
      readReg t 0 = readReg State.reset 0 ∧ readReg t 1 = readReg State.reset 1 ∧
      exec (.drw 0 1 5) t = .next (got (exec (.drw 0 1 5) t)) ∧ State.reset.fb = blankFb :=
  ⟨by decide, rfl, by decide, by decide, rfl, rfl⟩

theorem witness_SecondDrawAlwaysCollides :
    let s := { State.reset with fb := Vector.replicate 32 (BitVec.allOnes 64) }
    let t := got (exec (.drw 0 1 1) s)
    (s.I.toNat + (1 : Fin 16).val ≤ 4096) ∧ exec (.drw 0 1 1) s = .next t ∧ readReg t 0 = readReg s 0 ∧
      readReg t 1 = readReg s 1 ∧ exec (.drw 0 1 1) t = .next (got (exec (.drw 0 1 1) t)) ∧
      s.memory.read (s.I.toNat + 0) ≠ 0 :=
  ⟨by decide, rfl, by decide, by decide, rfl, by decide⟩

theorem witness_CallPushesReturnAddress :
    { State.reset with SP := 15 }.SP.val < 16 ∧ { State.reset with SP := 0 }.SP.val < 16 ∧
    { State.reset with SP := 16 }.SP.val = 16 := by decide

theorem witness_ReturnPopsLastSlot :
    0 < { State.reset with SP := 1 }.SP.val ∧ 0 < { State.reset with SP := 16 }.SP.val ∧ State.reset.SP.val = 0 := by decide

theorem witness_CallThenReturnRoundTrip :
    let s := { storing 0xFFE [0x00, 0xEE] (fetching 0x2FFE) with SP := 15 }
    CanFetch s ∧ s.SP.val < 16 ∧ (0xFFE : Addr12).toNat ≤ 4094 ∧ (0xFFE : Addr12).toNat % 2 = 0 ∧
      FetchesTo s (.instr (.call 0xFFE)) ∧
      decodeBytes (s.memory.read (0xFFE : Addr12).toNat) (s.memory.read ((0xFFE : Addr12).toNat + 1)) = .instr .ret :=
  ⟨⟨rfl, by decide, by decide⟩, by decide, by decide, by decide, by unfold FetchesTo; decide, by decide⟩

theorem witness_LoadThenAddIsOneLoad :
    exec (.ldByte 0xF 0x80) State.reset = .next (got (exec (.ldByte 0xF 0x80) State.reset)) := rfl

/-- Sums at the edge of the carry, with x = 0xF as well. -/
theorem witness_AddWithCarry :
    (255 = (readReg (aluState 255 0) 1).toNat ∧ 0 = (readReg (aluState 255 0) 2).toNat) ∧
    (255 = (readReg (aluState 255 1) 1).toNat ∧ 1 = (readReg (aluState 255 1) 2).toNat) ∧
    (255 = (readReg (withRegs [(0xF, 255), (1, 1)]) 0xF).toNat) := by decide

/-- Equal operands, and operands one apart. -/
theorem witness_SubtractWithNoBorrowFlag :
    (5 = (readReg (aluState 5 5) 1).toNat ∧ 5 = (readReg (aluState 5 5) 2).toNat) ∧
    (0 = (readReg (aluState 0 1) 1).toNat ∧ 1 = (readReg (aluState 0 1) 2).toNat) := by decide

theorem witness_ShiftsByOne :
    0x81 = shiftSourceValue params 1 2 (aluState 0x81 3) ∧
    3 = shiftSourceValue { params with shiftSource := .vy } 1 2 (aluState 0x81 3) := by decide

theorem witness_RandomByteIsMasked : (0x0F : Byte).getLsbD 4 = false ∧ (0x0F : Byte).getLsbD 7 = false := by decide

/-- A sum of exactly 0xFFF, one past it, and one that wraps. -/
theorem witness_IndexAddDetectsOverflow :
    0xFFF = ({ withRegs [(1, 1)] with I := 0xFFE }).I.toNat + (readReg { withRegs [(1, 1)] with I := 0xFFE } 1).toNat ∧
    0x1000 = ({ withRegs [(1, 1)] with I := 0xFFF }).I.toNat + (readReg { withRegs [(1, 1)] with I := 0xFFF } 1).toNat ∧
    0x10000 = ({ withRegs [(1, 1)] with I := 0xFFFF }).I.toNat +
      (readReg { withRegs [(1, 1)] with I := 0xFFFF } 1).toNat := by decide

theorem witness_DecimalDigitsStored :
    ({ State.reset with I := 0xFFD }).memory.wf = true ∧ ({ State.reset with I := 0xFFD }).I.toNat + 2 ≤ 0xFFF := by decide

theorem witness_BlockStore :
    State.reset.memory.wf = true ∧
    ({ State.reset with I := 0xFF0 }).I.toNat + (0xF : RegNum).val ≤ 0xFFF ∧
    0xFFF < ({ State.reset with I := 0xFF1 }).I.toNat + (0xF : RegNum).val ∧
    ({ State.reset with I := 0xFFF }).I.toNat + (0 : RegNum).val ≤ 0xFFF ∧
    0xFFF < ({ State.reset with I := 0x1000 }).I.toNat + (0 : RegNum).val := by decide

theorem witness_BlockLoad :
    ({ State.reset with I := 0xFF0 }).I.toNat + (0xF : RegNum).val ≤ 0xFFF ∧
    0xFFF < ({ State.reset with I := 0xFF1 }).I.toNat + (0xF : RegNum).val ∧
    ({ State.reset with I := 0xFFF }).I.toNat + (0 : RegNum).val ≤ 0xFFF ∧
    0xFFF < ({ State.reset with I := 0x1000 }).I.toNat + (0 : RegNum).val := by decide

theorem witness_BlockLoadInvertsBlockStore :
    let s := { withRegs [(0, 7), (1, 9)] with I := 0xFFE }
    let t := got (exec (.ldMemVx 1) s)
    let u := { t with I := s.I, V := Vector.replicate 16 0 }
    s.memory.wf = true ∧ s.I.toNat + (1 : RegNum).val ≤ 0xFFF ∧ exec (.ldMemVx 1) s = .next t ∧ u.memory = t.memory ∧
      u.I = s.I ∧ exec (.ldVxMem 1) u = .next (got (exec (.ldVxMem 1) u)) :=
  ⟨by decide, by decide, rfl, rfl, rfl, rfl⟩

theorem witness_StoredCodeIsFetchedNext :
    let s := { { State.reset with PC := 0xFFC }.withFetchWord 16 0xF155 with I := 0xFFE }
    let u := { { State.reset with PC := 0xFFA }.withFetchWord 16 0xF033 with I := 0xFFC }
    (CanFetch s ∧ s.memory.wf = true ∧ s.PC.toNat + 2 ≤ 4094 ∧ s.I = s.PC + 2 ∧
      s.I.toNat + (1 : RegNum).val ≤ 0xFFF ∧ FetchesTo s (.instr (.ldMemVx 1))) ∧
    (CanFetch u ∧ u.memory.wf = true ∧ u.PC.toNat + 2 ≤ 4094 ∧ u.I = u.PC + 2 ∧ u.I.toNat + 2 ≤ 0xFFF ∧
      FetchesTo u (.instr (.ldBVx 0))) :=
  ⟨⟨⟨rfl, by decide, by decide⟩, by decide, by decide, by decide, by decide, by unfold FetchesTo; decide⟩,
   ⟨rfl, by decide, by decide⟩, by decide, by decide, by decide, by decide, by unfold FetchesTo; decide⟩

/-- The state from which the remark's bound is passed. -/
theorem witness_IndexStaysWithinRemark :
    let s := { writeReg 0 1 (fetching 0xF01E) with I := 0x10FE }
    s.I.toNat ≤ 0x10FE ∧ step s = .next (got (step s)) := ⟨by decide, rfl⟩

theorem witness_MaskedIndexStaysInRange :
    let p := { params with iAddMask := .mask12 }
    let s := { writeReg 0 1 (fetching 0xF01E) with I := 0xFFF }
    p.iAddMask = .mask12 ∧ s.I.toNat ≤ 0xFFF ∧ stepWith p s = .next (got (stepWith p s)) := ⟨rfl, by decide, rfl⟩

theorem witness_KeySkips :
    (readReg (keyState 15 15) 1).toNat = (15 : Fin 16).val ∧ (readReg (keyState 0 15) 1).toNat = (0 : Fin 16).val ∧
    15 < (readReg (keyState 16 0) 1).toNat := by decide

/-- The lowest key alone, the highest alone, and no key. -/
theorem witness_KeyWait :
    ((setKey 0 true State.reset).keys[(0 : Fin 16).val] = true ∧
      ∀ j : Fin 16, j < 0 → (setKey 0 true State.reset).keys[j.val] = false) ∧
    ((setKey 15 true State.reset).keys[(15 : Fin 16).val] = true ∧
      ∀ j : Fin 16, j < 15 → (setKey 15 true State.reset).keys[j.val] = false) ∧
    ((∀ k : Fin 16, (fetchingTop 0xF20A).keys[k.val] = false) ∧ CanFetch (fetchingTop 0xF20A) ∧
      FetchesTo (fetchingTop 0xF20A) (.instr (.ldVxKey 2))) :=
  ⟨by decide, by decide, by decide, canFetch_fetchingTop _, by unfold FetchesTo; decide⟩

theorem witness_TimerWritesCountInTheirOwnStep :
    (CanFetch (fetching 0xF015) ∧ FetchesTo (fetching 0xF015) (.instr (.ldDTVx 0))) ∧
    (CanFetch (fetching 0xF018) ∧ FetchesTo (fetching 0xF018) (.instr (.ldSTVx 0))) ∧
    (CanFetch (fetching 0xF107) ∧ FetchesTo (fetching 0xF107) (.instr (.ldVxDT 1))) :=
  ⟨⟨canFetch_fetching _, by unfold FetchesTo; decide⟩, ⟨canFetch_fetching _, by unfold FetchesTo; decide⟩,
   canFetch_fetching _, by unfold FetchesTo; decide⟩

/-- Timers at 0 and at 1, after an instruction and after an unknown word. -/
theorem witness_TimersCountDownOnceAStep :
    let s := { fetching 0x6001 with DT := 1, ST := 1 }
    let u := got (exec (.ldByte 0 1) { s with PC := s.PC + 2 })
    (CanFetch s ∧ u.status = .running ∧ FetchesTo s (.instr (.ldByte 0 1)) ∧
      exec (.ldByte 0 1) { s with PC := s.PC + 2 } = .next u) ∧
    (CanFetch (fetching 0x0123) ∧ ({ fetching 0x0123 with PC := (fetching 0x0123).PC + 2 }).status = .running ∧
      FetchesTo (fetching 0x0123) (.unknown 0x0123)) :=
  ⟨⟨⟨rfl, by decide, by decide⟩, rfl, by unfold FetchesTo; decide, rfl⟩,
   canFetch_fetching _, rfl, by unfold FetchesTo; decide⟩

theorem witness_TimersRunUndisturbed :
    let s := { fetching 0x6001 with DT := 5, ST := 1 }
    s.status = .running ∧ step s = .next (got (step s)) ∧ (got (step s)).status = .running ∧
      (∀ x, ¬ FetchesTo s (.instr (.ldDTVx x))) ∧ (∀ x, ¬ FetchesTo s (.instr (.ldSTVx x))) :=
  ⟨rfl, rfl, rfl, by unfold FetchesTo; decide, by unfold FetchesTo; decide⟩

theorem witness_ResetHoldsAnyFont : (List.replicate 80 (0xFF : Byte)).length = 80 := List.length_replicate

/-- An empty image, one that just fits, and one byte more. -/
theorem witness_LoadProgramStoresOrHalts :
    State.reset.memory.wf = true ∧ State.reset.status = .running ∧ ([] : List Byte).length ≤ 3584 ∧
    (List.replicate 3584 (1 : Byte)).length ≤ 3584 ∧ 3584 < (List.replicate 3585 (1 : Byte)).length := by
  simp only [List.length_replicate]; decide

theorem witness_DrawFlagIsSetOnlyByDrawing :
    let s := { fetching 0x00E0 with drawFlag := false }
    step s = .next (got (step s)) ∧ s.drawFlag = false ∧ (got (step s)).drawFlag = true ∧
      step State.reset = .next (got (step State.reset)) ∧ State.reset.drawFlag = true := ⟨rfl, rfl, rfl, rfl, rfl⟩

theorem witness_SetKeySetsOneLevel : 15 < 16 ∧ 0 < 16 ∧ 16 ≤ 16 := by decide

theorem witness_LifecycleRefusals :
    PortCall.step ≠ .init ∧ { State.reset with status := .halted .ioFailure }.status = .halted .ioFailure := by decide

end Sys2Proof.Tests
end

section
/-! PROOF. The answer of exec is exactly what `Post` names, and what each instruction leaves as it was. -/

namespace Sys2Proof.Machine

variable {i : Instr} {s t u : State}

/-! ## `Post` names one state -/

theorem DataPost.unique {len : Nat} {t' : State} (ht : DataPost len s t' t) (hu : DataPost len s t' u) : t = u := by
  rcases ht with ⟨ha, rfl⟩ | ⟨ha, rfl⟩ <;> rcases hu with ⟨hb, rfl⟩ | ⟨hb, rfl⟩
  · rfl
  · simp [ha] at hb
  · simp [ha] at hb
  · rfl

theorem KeySkipPost.unique {x : RegNum} {b : Bool} (ht : KeySkipPost x b s t) (hu : KeySkipPost x b s u) : t = u := by
  rcases ht with ⟨k, hk, rfl⟩ | ⟨hk, rfl⟩ <;> rcases hu with ⟨j, hj, rfl⟩ | ⟨hj, rfl⟩
  · rw [Fin.ext (hk.trans hj.symm)]
  · omega
  · omega
  · rfl

theorem post_unique (ht : Post i s t) (hu : Post i s u) : t = u := by
  cases i with
  | drw | ldBVx | ldMemVx | ldVxMem => exact DataPost.unique ht hu
  | skp | sknp => exact KeySkipPost.unique ht hu
  | ret | call =>
    rcases ht with ⟨ha, rfl⟩ | ⟨ha, rfl⟩ <;> rcases hu with ⟨hb, rfl⟩ | ⟨hb, rfl⟩
    · rfl
    · omega
    · omega
    · rfl
  | ldVxKey =>
    rcases ht with ⟨k, hk, rfl⟩ | ⟨hk, rfl⟩ <;> rcases hu with ⟨j, hj, rfl⟩ | ⟨hj, rfl⟩
    · rw [Option.some.inj (hk.symm.trans hj)]
    · simp [hk] at hj
    · simp [hk] at hj
    · rfl
  | _ => exact Eq.trans ht (Eq.symm hu)

/-- The converse of `exec_post`: a state that `Post` names is the one exec answers. -/
theorem exec_of_post (h : Post i s t) : exec i s = .next t := by
  obtain ⟨u, hu, hp⟩ := exec_total i s
  rw [hu, post_unique hp h]

/-! ## The frame of every instruction -/

/-- What an instruction leaves as it was, unless it is one of the writers the spec lists for the field. -/
structure Frame (i : Instr) (s t : State) : Prop where
  memory   : (∀ x, i ≠ .ldBVx x) → (∀ x, i ≠ .ldMemVx x) → t.memory = s.memory
  I        : writesI i = false → t.I = s.I
  PC       : writesPC i = false → t.PC = s.PC
  stack    : usesStack i = false → t.stack = s.stack
  SP       : usesStack i = false → t.SP = s.SP
  fb       : writesFb i = false → t.fb = s.fb
  drawFlag : writesFb i = false → t.drawFlag = s.drawFlag
  DT       : (∀ x, i ≠ .ldDTVx x) → t.DT = s.DT
  ST       : (∀ x, i ≠ .ldSTVx x) → t.ST = s.ST
  keys     : t.keys = s.keys
  draws    : (∀ x nn, i ≠ .rnd x nn) → t.draws = s.draws

/-- A fatal condition changes the status alone. -/
theorem frame_haltWith (i : Instr) (c : Cause) (s : State) : Frame i s (haltWith c s) := by
  constructor <;> simp

theorem DataPost.frame {len : Nat} {t' : State} (h : DataPost len s t' t) (ht' : Frame i s t') : Frame i s t := by
  rcases h with ⟨-, rfl⟩ | ⟨-, rfl⟩
  · exact ht'
  · exact frame_haltWith i _ s

theorem post_frame (h : Post i s t) : Frame i s t := by
  cases i with
  | drw => exact DataPost.frame h (by constructor <;> simp [writesFb])
  | ldBVx => exact DataPost.frame h (by constructor <;> simp)
  | ldMemVx | ldVxMem => exact DataPost.frame h (by constructor <;> simp [writesI])
  | skp | sknp =>
    rcases h with ⟨k, -, rfl⟩ | ⟨-, rfl⟩
    · constructor <;> simp [writesPC]
    · exact frame_haltWith _ _ s
  | ret | call =>
    rcases h with ⟨-, rfl⟩ | ⟨-, rfl⟩
    · constructor <;> simp [usesStack, writesPC]
    · exact frame_haltWith _ _ s
  | ldVxKey =>
    rcases h with ⟨k, -, rfl⟩ | ⟨-, rfl⟩ <;> constructor <;> simp [writesPC]
  | cls => cases h; constructor <;> simp [writesFb]
  | ldI | addIVx | ldFVx => cases h; constructor <;> simp [writesI]
  | jp | seByte | sneByte | seReg | sneReg | jpV0 => cases h; constructor <;> simp [writesPC]
  | _ => cases h; constructor <;> simp

/-- Settles O18, field by field from the frame of every instruction. -/
theorem otherStateFrame : Obligations.OtherStateFrame := by
  intro i s t h
  have f := post_frame (exec_post h)
  exact ⟨f.I, f.PC, fun hs => ⟨f.stack hs, f.SP hs⟩, fun hf => ⟨f.fb hf, f.drawFlag hf⟩, f.DT, f.ST, f.keys, f.draws⟩

/-- An instruction writes no register but those R34 lists for it. -/
theorem post_readReg {k : RegNum} (h : Post i s t) (hk : writesReg i k = false) : readReg t k = readReg s k := by
  cases i with
  | ldByte | addByte | ldReg | orReg | andReg | xorReg | rnd | ldVxDT =>
    cases h
    exact readReg_writeReg_ne _ _ (by simpa [writesReg] using hk)
  | addReg | subReg | shr | subnReg | shl =>
    cases h
    obtain ⟨hx, hf⟩ : k ≠ _ ∧ k ≠ 0xF := by simpa [writesReg] using hk
    simp [readReg_commitFlagged, hx, hf]
  | addIVx =>
    cases h
    have hf : k ≠ 0xF := by simpa [writesReg] using hk
    simp [readReg_setFlag, hf]
  | drw =>
    have hf : k ≠ 0xF := by simpa [writesReg] using hk
    rcases h with ⟨-, rfl⟩ | ⟨-, rfl⟩ <;> simp [readReg_setFlag, hf]
  | ldVxMem x =>
    have hx : ¬ k ≤ x := by simpa [writesReg] using hk
    rcases h with ⟨-, rfl⟩ | ⟨-, rfl⟩ <;> simp [readReg_loadRegs, hx]
  | ldVxKey =>
    rcases h with ⟨j, -, rfl⟩ | ⟨-, rfl⟩
    · exact readReg_writeReg_ne _ _ (by simpa [writesReg] using hk)
    · rfl
  | ldBVx | ldMemVx | ret | call => rcases h with ⟨-, rfl⟩ | ⟨-, rfl⟩ <;> rfl
  | skp | sknp => rcases h with ⟨j, -, rfl⟩ | ⟨-, rfl⟩ <;> simp
  | seByte | sneByte | seReg | sneReg => cases h; simp
  | cls | jp | ldI | jpV0 | ldDTVx | ldSTVx | ldFVx => cases h; rfl

/-- Settles O16: the inversion of exec and the registers each instruction writes. -/
theorem registerWritersAreTheListed : Obligations.RegisterWritersAreTheListed :=
  fun _ _ _ _ h hk => post_readReg (exec_post h) hk

end Sys2Proof.Machine
end

section
/-! PROOF. The step, read backwards: which of its outcomes it has from a given state, and what a running one did. -/

namespace Sys2Proof.Machine

open Claims

variable {s t u : State}

/-- Under this hardware's parameters a running core either may fetch or raises a fatal condition of the fetch (R122). -/
theorem canFetch_or_fatal (hs : s.status = .running) : CanFetch s ∨ ∃ c, fetch params s = .fatal c := by
  by_cases hr : s.PC.toNat ≤ 4094
  · rcases Nat.mod_two_eq_zero_or_one s.PC.toNat with he | ho
    · exact .inl ⟨hs, hr, he⟩
    · exact .inr ⟨.pcMisaligned, by simp [fetch, ho, params]; omega⟩
  · exact .inr ⟨.pcOutOfRange, by simp [fetch]; omega⟩

/-- The cycle of a core that may fetch runs the word at PC. -/
theorem cycle_canFetch (h : CanFetch s) :
    cycle s = runWord exec s (wordOfBytes (s.memory.read s.PC.toNat) (s.memory.read (s.PC.toNat + 1))) := by
  obtain ⟨hs, hr, he⟩ := h
  exact cycleWith_word hs (fetch_word hr (.inl he))

/-- The cycle whose word is the instruction `i` ends in the state `i` leaves. -/
theorem cycle_instr {i : Instr} (hc : CanFetch s) (hf : FetchesTo s (.instr i)) (hp : Post i (advancePC s) u) :
    cycle s = .next (completeStep s u none) := by
  have hd : decode (wordOfBytes (s.memory.read s.PC.toNat) (s.memory.read (s.PC.toNat + 1))) = .instr i := hf
  simp [cycle_canFetch hc, runWord, hd, exec_of_post hp, settle]

/-- The cycle whose word is unknown only moves past it. -/
theorem cycle_unknown {w : Word} (hc : CanFetch s) (hf : FetchesTo s (.unknown w)) :
    cycle s = .next (completeStep s (advancePC s) (some w)) := by
  have hd : decode (wordOfBytes (s.memory.read s.PC.toNat) (s.memory.read (s.PC.toNat + 1))) = .unknown w := hf
  simp [cycle_canFetch hc, runWord, hd]

/-- The four ways a cycle goes (R120): the core is halted, the fetch is fatal, the word is an instruction, or it is unknown. -/
theorem cycle_cases (s : State) :
    (∃ c, s.status = .halted c) ∨
    (s.status = .running ∧ ∃ c, fetch params s = .fatal c) ∨
    (∃ i u, CanFetch s ∧ FetchesTo s (.instr i) ∧ Post i (advancePC s) u) ∨
    (∃ w, CanFetch s ∧ FetchesTo s (.unknown w)) := by
  cases hs : s.status with
  | halted c => exact .inl ⟨c, rfl⟩
  | running =>
    rcases canFetch_or_fatal hs with hc | hf
    · cases hd : decodeBytes (s.memory.read s.PC.toNat) (s.memory.read (s.PC.toNat + 1)) with
      | instr i =>
        obtain ⟨u, -, hp⟩ := exec_total i (advancePC s)
        exact .inr (.inr (.inl ⟨i, u, hc, hd, hp⟩))
      | unknown w => exact .inr (.inr (.inr ⟨w, hc, hd⟩))
    · exact .inr (.inl ⟨rfl, hf⟩)

theorem step_of_cycle {q : State × Signals} (h : cycle s = .next q) : step s = .next q.1 := by simp [step, h, stateOf]

theorem signals_of_cycle {q : State × Signals} (h : cycle s = .next q) : signals s = q.2 := by simp [signals, h, signalsOf]

/-- What the word at PC leaves in a step that goes on running: an instruction's state, or PC past an unknown word. -/
def RunsWord (s u : State) : Prop :=
  (∃ i, FetchesTo s (.instr i) ∧ Post i (advancePC s) u) ∨ (∃ w, FetchesTo s (.unknown w) ∧ u = advancePC s)

/-- A step that completes its word ends in the state the word left with the timers counted down, and beeps exactly if ST was
1 there (R127, R128). -/
structure Completes (s t u : State) : Prop where
  canFetch : CanFetch s
  runs     : RunsWord s u
  running  : u.status = .running
  ticked   : t = tickTimers u
  beep     : (signals s).beep = (u.ST == 1)

theorem completes_or_halts {x : Option Word} (hc : CanFetch s) (hr : RunsWord s u)
    (h : cycle s = .next (completeStep s u x)) (ht : step s = .next t) :
    (∃ c, t = haltWith c s) ∨ Completes s t u := by
  obtain rfl : _ = t := Host.Outcome.next.inj ((step_of_cycle h).symm.trans ht)
  cases hu : u.status with
  | halted c => exact .inl ⟨c, by rw [completeStep_halted hu]⟩
  | running =>
    refine .inr ⟨hc, hr, hu, by rw [completeStep_running hu], ?_⟩
    rw [signals_of_cycle h, completeStep_running hu]

/-- The inversion of step: a halted core stays as it is, a fatal condition changes the status alone, and any other step
completes its word. -/
theorem step_cases (h : step s = .next t) :
    ((∃ c, s.status = .halted c) ∧ t = s) ∨ (∃ c, t = haltWith c s) ∨ (∃ u, Completes s t u) := by
  rcases cycle_cases s with ⟨c, hs⟩ | ⟨hs, c, hf⟩ | ⟨i, u, hc, hf, hp⟩ | ⟨w, hc, hf⟩
  · have ht := (step_of_cycle (cycleWith_halted hs)).symm.trans h
    exact .inl ⟨⟨c, hs⟩, (Host.Outcome.next.inj ht).symm⟩
  · have ht := (step_of_cycle (cycleWith_fatal hs hf)).symm.trans h
    exact .inr (.inl ⟨c, (Host.Outcome.next.inj ht).symm⟩)
  · exact .inr ((completes_or_halts hc (.inl ⟨i, hf, hp⟩) (cycle_instr hc hf hp) h).imp_right (⟨u, ·⟩))
  · exact .inr ((completes_or_halts hc (.inr ⟨w, hf, rfl⟩) (cycle_unknown hc hf) h).imp_right (⟨_, ·⟩))

end Sys2Proof.Machine
end

section
/-! PROOF. The invariant of every state (R38, R49, R170): what an instruction makes of each of its parts. -/

namespace Sys2Proof.Machine

open Claims

variable {i : Instr} {s t u : State}

/-- The data check leaves room for the bytes that the store writes. -/
theorem DataPost.memory_wf {len : Nat} {t' : State} (h : DataPost len s t' t) (hw : s.memory.wf = true) {bs : List Byte}
    (hlen : bs.length = len) (hpos : len ≠ 0) (ht' : t'.memory = s.memory.writeBytes s.I.toNat bs) :
    t.memory.wf = true := by
  rcases h with ⟨ha, rfl⟩ | ⟨-, rfl⟩
  · rw [inMemory_iff] at ha
    rw [ht']
    exact Memory.writeBytes_wf hw (by omega)
  · exact hw

/-- Every instruction keeps the memory canonical. -/
theorem post_memory_wf (h : Post i s t) (hw : s.memory.wf = true) : t.memory.wf = true := by
  cases i with
  | ldBVx x => exact DataPost.memory_wf h hw (bs := decimalDigits (readReg s x)) rfl (by simp) rfl
  | ldMemVx x => exact DataPost.memory_wf h hw (bs := regsUpTo s x) (by simp [regsUpTo]) (by simp) rfl
  | _ => rw [(post_frame h).memory (by simp) (by simp)]; exact hw

/-- A property of every stack slot that the pushed PC has too is one of every slot after the instruction. -/
theorem post_stack_forall {P : Word → Prop} (h : Post i s t) (hs : ∀ k : Fin 16, P s.stack[k.val]) (hp : P s.PC)
    (k : Fin 16) : P t.stack[k.val] := by
  cases i with
  | call =>
    rcases h with ⟨hlt, rfl⟩ | ⟨-, rfl⟩
    · simp only [Vector.getElem_set]
      split
      · exact hp
      · exact hs k
    · exact hs k
  | ret => rcases h with ⟨-, rfl⟩ | ⟨-, rfl⟩ <;> exact hs k
  | _ => rw [(post_frame h).stack rfl]; exact hs k

theorem skipIf_PC_le (c : Bool) (h : s.PC.toNat ≤ 4096) : (skipIf c s).PC.toNat ≤ 0x10FE := by
  rw [skipIf_PC]
  split <;> bv_omega

/-- From PC past a word of memory and stack slots in range, every instruction leaves PC at most 0x10FE; Bnnn alone
reaches that (R38, R49). -/
theorem post_PC_le (h : Post i s t) (hlo : 2 ≤ s.PC.toNat) (hhi : s.PC.toNat ≤ 4096)
    (hst : ∀ k : Fin 16, s.stack[k.val].toNat ≤ 4096) : t.PC.toNat ≤ 0x10FE := by
  cases i with
  | ret =>
    rcases h with ⟨hsp, rfl⟩ | ⟨-, rfl⟩
    · have := hst ⟨s.SP.val - 1, by omega⟩
      simp only at this ⊢
      omega
    · simp; omega
  | call nnn =>
    rcases h with ⟨-, rfl⟩ | ⟨-, rfl⟩
    · simp [addrOperand]; omega
    · simp; omega
  | jp nnn => cases h; simp [addrOperand]; omega
  | jpV0 nnn => cases h; simp [addrOperand, zext16]; omega
  | seByte | sneByte | seReg | sneReg => cases h; exact skipIf_PC_le _ hhi
  | skp | sknp =>
    rcases h with ⟨k, -, rfl⟩ | ⟨-, rfl⟩
    · exact skipIf_PC_le _ hhi
    · simp; omega
  | ldVxKey =>
    rcases h with ⟨k, -, rfl⟩ | ⟨-, rfl⟩
    · simp; omega
    · simp; bv_omega
  | _ => rw [(post_frame h).PC rfl]; omega

theorem advancePC_PC_toNat (h : CanFetch s) : (advancePC s).PC.toNat = s.PC.toNat + 2 := by
  obtain ⟨-, hr, -⟩ := h
  simp; omega

/-- The word at PC keeps the invariant. -/
theorem runsWord_legal (hc : CanFetch s) (hl : Legal s) (h : RunsWord s u) : Legal u := by
  have ⟨_, hr, he⟩ := hc
  have hpc := advancePC_PC_toNat hc
  rcases h with ⟨i, -, hp⟩ | ⟨w, -, rfl⟩
  · exact ⟨post_memory_wf hp hl.memory_wf, post_PC_le hp (by omega) (by omega) hl.stack_bound,
      post_stack_forall (P := fun w => w.toNat % 2 = 0) hp hl.stack_even (by omega),
      post_stack_forall (P := fun w => w.toNat ≤ 4096) hp hl.stack_bound (by omega)⟩
  · exact ⟨hl.memory_wf, by omega, hl.stack_even, hl.stack_bound⟩

theorem legal_haltWith (c : Cause) (h : Legal s) : Legal (haltWith c s) :=
  ⟨h.memory_wf, h.pc_bound, h.stack_even, h.stack_bound⟩

theorem legal_tickTimers (h : Legal s) : Legal (tickTimers s) :=
  ⟨h.memory_wf, h.pc_bound, h.stack_even, h.stack_bound⟩

/-- Settles O13: a step that completes its word keeps the invariant, and no other step changes what it speaks of. -/
theorem stepKeepsLegal : Obligations.StepKeepsLegal := by
  intro s t hl h
  rcases step_cases h with ⟨-, rfl⟩ | ⟨c, rfl⟩ | ⟨u, hu⟩
  · exact hl
  · exact legal_haltWith c hl
  · obtain rfl := hu.ticked
    exact legal_tickTimers (runsWord_legal hu.canFetch hl hu.runs)

/-- Settles O14. -/
theorem resetIsLegal : Obligations.ResetIsLegal :=
  ⟨Memory.reset_wf, by decide, by decide, by decide⟩

end Sys2Proof.Machine
end

section
/-! PROOF. What an instruction does not read: the keys, the stack's slots, ST and the draw flag are passed through unread but
by the instructions the spec lists (R41, R43, R45, R47). -/

namespace Sys2Proof.Machine

open Claims

variable {i : Instr} {s t u : State}

/-- Any other contents of the four fields that hardly any instruction reads. -/
def remap (k : Vector Bool 16 → Vector Bool 16) (m : Vector Word 16 → Vector Word 16) (b : Byte → Byte) (d : Bool → Bool)
    (s : State) : State :=
  { s with keys := k s.keys, stack := m s.stack, ST := b s.ST, drawFlag := d s.drawFlag }

section
variable (k : Vector Bool 16 → Vector Bool 16) (m : Vector Word 16 → Vector Word 16) (b : Byte → Byte) (d : Bool → Bool)

theorem remap_skipIf (c : Bool) (s : State) : remap k m b d (skipIf c s) = skipIf c (remap k m b d s) := by
  cases c <;> rfl

/-- Fx65 loads the same registers. The state is taken apart because `rfl` then meets equal fields and never evaluates V. -/
theorem remap_setI_loadRegs (x : RegNum) (s : State) :
    remap k m b d (setI (indexAfterBlock x) (loadRegs x s)) = setI (indexAfterBlock x) (loadRegs x (remap k m b d s)) := by
  cases s
  rfl

theorem DataPost.remap {len : Nat} {t' u' : State} (h : DataPost len s t' t) (hu : remap k m b d t' = u') :
    DataPost len (remap k m b d s) u' (remap k m b d t) := by
  rcases h with ⟨ha, rfl⟩ | ⟨ha, rfl⟩
  · exact .inl ⟨ha, hu⟩
  · exact .inr ⟨ha, rfl⟩

theorem KeySkipPost.remap {x : RegNum} {pressed : Bool} (h : KeySkipPost x pressed s t) :
    KeySkipPost x pressed (remap id m b d s) (remap id m b d t) := by
  rcases h with ⟨j, hj, rfl⟩ | ⟨hx, rfl⟩
  · exact .inl ⟨j, hj, remap_skipIf ..⟩
  · exact .inr ⟨hx, rfl⟩

/-- An instruction does the same whatever the four fields hold, as long as those it uses itself are left alone. -/
theorem post_remap (h : Post i s t) (hk : readsKeys i = true → k = id) (hm : usesStack i = true → m = id)
    (hb : ∀ x, i = .ldSTVx x → b = id) (hd : writesFb i = true → d = id) :
    Post i (remap k m b d s) (remap k m b d t) := by
  cases i with
  | cls => obtain rfl := hd rfl; cases h; rfl
  | drw => obtain rfl := hd rfl; exact DataPost.remap k m b id h rfl
  | ldBVx | ldMemVx => exact DataPost.remap k m b d h rfl
  | ldVxMem => exact DataPost.remap k m b d h (remap_setI_loadRegs ..)
  | ldSTVx => obtain rfl := hb _ rfl; cases h; rfl
  | skp | sknp => obtain rfl := hk rfl; exact KeySkipPost.remap m b d h
  | ldVxKey =>
    obtain rfl := hk rfl
    rcases h with ⟨j, hj, rfl⟩ | ⟨hj, rfl⟩
    · exact .inl ⟨j, hj, rfl⟩
    · exact .inr ⟨hj, rfl⟩
  | ret | call =>
    obtain rfl := hm rfl
    rcases h with ⟨hsp, rfl⟩ | ⟨hsp, rfl⟩
    · exact .inl ⟨hsp, rfl⟩
    · exact .inr ⟨hsp, rfl⟩
  | seByte | sneByte | seReg | sneReg => cases h; exact remap_skipIf ..
  | _ => cases h; rfl

end

/-- Settles O19: the frame leaves the keys, and an instruction that does not read them passes any others through. -/
theorem onlyKeyInstructionsReadKeys : Obligations.OnlyKeyInstructionsReadKeys := by
  intro i s t ks h
  refine ⟨(post_frame (exec_post h)).keys, fun hk => exec_of_post ?_⟩
  exact post_remap (fun _ => ks) id id id (exec_post h) (by simp [hk]) (fun _ => rfl) (fun _ _ => rfl) (fun _ => rfl)

/-- The state Dxyn leaves, or the halt, does not depend on ST or the draw flag. -/
theorem post_drw_ST_drawFlag {x y : RegNum} {n : Fin 16} (b : Byte) (d : Bool) (h : Post (.drw x y n) s t) :
    ∃ d', Post (.drw x y n) { s with ST := b, drawFlag := d } { t with ST := b, drawFlag := d' } := by
  rcases h with ⟨ha, rfl⟩ | ⟨ha, rfl⟩
  · exact ⟨true, .inl ⟨ha, rfl⟩⟩
  · exact ⟨d, .inr ⟨ha, rfl⟩⟩

/-- From any other ST and draw flag, an instruction leaves the same state but for these two fields. -/
theorem post_ST_drawFlag (b : Byte) (d : Bool) (h : Post i s t) :
    ∃ b' d', Post i { s with ST := b, drawFlag := d } { t with ST := b', drawFlag := d' } := by
  cases i with
  | cls => cases h; exact ⟨b, true, rfl⟩
  | drw => exact ⟨b, post_drw_ST_drawFlag b d h⟩
  | ldSTVx x => cases h; exact ⟨readReg s x, d, rfl⟩
  | _ => exact ⟨b, d, post_remap id id (fun _ => b) (fun _ => d) h (fun _ => rfl) (fun _ => rfl) nofun nofun⟩

/-- Settles O20: exec answers the state that `post_ST_drawFlag` names. -/
theorem soundTimerAndDrawFlagAreNeverRead : Obligations.SoundTimerAndDrawFlagAreNeverRead := by
  intro i s t b d h
  obtain ⟨b', d', hp⟩ := post_ST_drawFlag b d (exec_post h)
  exact ⟨_, exec_of_post hp, rfl⟩

/-! ## Stale stack slots -/

/-- `s'` is `s` with other contents in stack slots from SP on, if anywhere. -/
def StaleSlotsDiffer (s s' : State) : Prop :=
  ∃ st, s' = { s with stack := st } ∧ ∀ k : Fin 16, k.val < s.SP.val → st[k.val] = s.stack[k.val]

variable {s' u' : State}

theorem StaleSlotsDiffer.advancePC (h : StaleSlotsDiffer s s') : StaleSlotsDiffer (advancePC s) (advancePC s') := by
  obtain ⟨st, rfl, ha⟩ := h
  exact ⟨st, rfl, ha⟩

theorem StaleSlotsDiffer.haltWith (c : Cause) (h : StaleSlotsDiffer s s') :
    StaleSlotsDiffer (haltWith c s) (haltWith c s') := by
  obtain ⟨st, rfl, ha⟩ := h
  exact ⟨st, rfl, ha⟩

theorem StaleSlotsDiffer.tickTimers (h : StaleSlotsDiffer s s') : StaleSlotsDiffer (tickTimers s) (tickTimers s') := by
  obtain ⟨st, rfl, ha⟩ := h
  exact ⟨st, rfl, ha⟩

/-- A push writes its slot whatever the slot held. -/
theorem post_call_staleSlots {nnn : Addr12} (h : Post (.call nnn) s t) (hd : StaleSlotsDiffer s s') :
    ∃ t', Post (.call nnn) s' t' ∧ StaleSlotsDiffer t t' := by
  rcases h with ⟨hsp, rfl⟩ | ⟨hsp, rfl⟩
  · obtain ⟨st, rfl, ha⟩ := hd
    refine ⟨_, .inl ⟨hsp, rfl⟩, st.set s.SP.val s.PC, rfl, fun k hk => ?_⟩
    simp only [Vector.getElem_set]
    split
    · rfl
    · exact ha k (by simp only at hk; omega)
  · have hd' := hd.haltWith .stackOverflow
    obtain ⟨st, rfl, -⟩ := hd
    exact ⟨_, .inr ⟨hsp, rfl⟩, hd'⟩

/-- A pop reads an active slot. -/
theorem post_ret_staleSlots (h : Post .ret s t) (hd : StaleSlotsDiffer s s') :
    ∃ t', Post .ret s' t' ∧ StaleSlotsDiffer t t' := by
  rcases h with ⟨hsp, rfl⟩ | ⟨hsp, rfl⟩
  · obtain ⟨st, rfl, ha⟩ := hd
    have htop := ha ⟨s.SP.val - 1, by omega⟩ (by simp only; omega)
    exact ⟨_, .inl ⟨hsp, rfl⟩, st, by simp only [htop], fun k hk => ha k (by simp only at hk; omega)⟩
  · have hd' := hd.haltWith .stackUnderflow
    obtain ⟨st, rfl, -⟩ := hd
    exact ⟨_, .inr ⟨hsp, rfl⟩, hd'⟩

/-- An instruction that does not use the stack passes it through. -/
theorem post_staleSlots_of_not_usesStack (hu : usesStack i = false) (h : Post i s t) (hd : StaleSlotsDiffer s s') :
    ∃ t', Post i s' t' ∧ StaleSlotsDiffer t t' := by
  obtain ⟨st, rfl, ha⟩ := hd
  have f := post_frame h
  refine ⟨_, post_remap id (fun _ => st) id id h (fun _ => rfl) (by simp [hu]) (fun _ _ => rfl) (fun _ => rfl), st, rfl, ?_⟩
  rw [f.stack hu, f.SP hu]
  exact ha

theorem post_staleSlots (h : Post i s t) (hd : StaleSlotsDiffer s s') :
    ∃ t', Post i s' t' ∧ StaleSlotsDiffer t t' := by
  cases i with
  | call => exact post_call_staleSlots h hd
  | ret => exact post_ret_staleSlots h hd
  | _ => exact post_staleSlots_of_not_usesStack rfl h hd

/-- The end of a step does not read the stack. -/
theorem completeStep_staleSlots (x : Option Word) (hs : StaleSlotsDiffer s s') (hu : StaleSlotsDiffer u u') :
    StaleSlotsDiffer (completeStep s u x).1 (completeStep s' u' x).1 := by
  have hst : u'.status = u.status := by obtain ⟨st, rfl, -⟩ := hu; rfl
  cases h : u.status with
  | running =>
    rw [completeStep_running h, completeStep_running (hst.trans h)]
    exact hu.tickTimers
  | halted c =>
    rw [completeStep_halted h, completeStep_halted (hst.trans h)]
    exact hs.haltWith c

/-- Two cycles whose states differ in stale slots alone go the same way, since the fetch does not read the stack. -/
theorem cycle_staleSlots (hd : StaleSlotsDiffer s s') :
    ∃ q q', cycle s = .next q ∧ cycle s' = .next q' ∧ StaleSlotsDiffer q.1 q'.1 := by
  have ⟨st, e, _⟩ := hd
  subst e
  rcases cycle_cases s with ⟨c, hs⟩ | ⟨hs, c, hf⟩ | ⟨i, u, hc, hf, hp⟩ | ⟨w, hc, hf⟩
  · exact ⟨_, _, cycleWith_halted hs, cycleWith_halted hs, hd⟩
  · exact ⟨_, _, cycleWith_fatal hs hf, cycleWith_fatal hs hf, hd.haltWith c⟩
  · obtain ⟨u', hp', hu⟩ := post_staleSlots hp hd.advancePC
    exact ⟨_, _, cycle_instr hc hf hp, cycle_instr hc hf hp', completeStep_staleSlots none hd hu⟩
  · exact ⟨_, _, cycle_unknown hc hf, cycle_unknown hc hf, completeStep_staleSlots (some w) hd hd.advancePC⟩

/-- Settles O21: the two cycles end in states that differ in stale slots alone. -/
theorem staleStackSlotsAreUnobservable : Obligations.StaleStackSlotsAreUnobservable := by
  intro s t st ha h
  obtain ⟨q, q', hq, hq', st', he, ha'⟩ := cycle_staleSlots ⟨st, rfl, ha⟩
  obtain rfl : q.1 = t := Host.Outcome.next.inj ((step_of_cycle hq).symm.trans h)
  exact ⟨st', (step_of_cycle hq').trans (congrArg _ he), ha'⟩

end Sys2Proof.Machine
end

section
/-! PROOF. The timers and the draw flag over a whole step, and the remark on I that Fx1E refutes. -/

namespace Sys2Proof.Machine

open Claims

variable {i : Instr} {s t u : State}

theorem runsWord_DT (h : RunsWord s u) (hn : ∀ x, ¬ FetchesTo s (.instr (.ldDTVx x))) : u.DT = s.DT := by
  rcases h with ⟨i, hf, hp⟩ | ⟨w, -, rfl⟩
  · exact (post_frame hp).DT fun x hx => hn x (hx ▸ hf)
  · rfl

theorem runsWord_ST (h : RunsWord s u) (hn : ∀ x, ¬ FetchesTo s (.instr (.ldSTVx x))) : u.ST = s.ST := by
  rcases h with ⟨i, hf, hp⟩ | ⟨w, -, rfl⟩
  · exact (post_frame hp).ST fun x hx => hn x (hx ▸ hf)
  · rfl

/-- Settles O53: a step that goes on running has completed its word, which left the timer as it was for the countdown. -/
theorem timersRunUndisturbed : Obligations.TimersRunUndisturbed := by
  intro s t hs h ht
  rcases step_cases h with ⟨⟨c, hc⟩, -⟩ | ⟨c, rfl⟩ | ⟨u, hu⟩
  · simp [hs] at hc
  · simp at ht
  obtain rfl := hu.ticked
  constructor
  · intro hn
    simp [countDown_toNat, runsWord_DT hu.runs hn]
  · intro hn
    simp [countDown_toNat, hu.beep, runsWord_ST hu.runs hn]

/-- No instruction clears the draw flag. -/
theorem post_drawFlag_mono (h : Post i s t) (hd : s.drawFlag = true) : t.drawFlag = true := by
  cases i with
  | cls => cases h; rfl
  | drw =>
    rcases h with ⟨-, rfl⟩ | ⟨-, rfl⟩
    · rfl
    · exact hd
  | _ => exact ((post_frame h).drawFlag rfl).trans hd

theorem runsWord_drawFlag_mono (h : RunsWord s u) (hd : s.drawFlag = true) : u.drawFlag = true := by
  rcases h with ⟨i, -, hp⟩ | ⟨w, -, rfl⟩
  · exact post_drawFlag_mono hp hd
  · exact hd

/-- A word that sets the draw flag is one that writes the framebuffer. -/
theorem runsWord_sets_drawFlag (h : RunsWord s u) (hd : s.drawFlag = false) (hu : u.drawFlag = true) :
    ∃ i, FetchesTo s (.instr i) ∧ writesFb i = true := by
  rcases h with ⟨i, hf, hp⟩ | ⟨w, -, rfl⟩
  · refine ⟨i, hf, Bool.of_not_eq_false fun hw => ?_⟩
    simp [(post_frame hp).drawFlag hw, hd] at hu
  · simp [hd] at hu

/-- Settles O58: only a step that completes its word can change the draw flag, and it does so as the word does. -/
theorem drawFlagIsSetOnlyByDrawing : Obligations.DrawFlagIsSetOnlyByDrawing := by
  intro s t h
  rcases step_cases h with ⟨-, rfl⟩ | ⟨c, rfl⟩ | ⟨u, hu⟩
  · exact ⟨id, fun hd ht => by simp [hd] at ht⟩
  · exact ⟨id, fun hd ht => by simp [hd] at ht⟩
  · obtain rfl := hu.ticked
    rw [tickTimers_drawFlag]
    exact ⟨runsWord_drawFlag_mono hu.runs, runsWord_sets_drawFlag hu.runs⟩

/-- Refutes O46: the word 0xF01E (Fx1E with x = 0), from I = 0x10FE and V0 = 1, leaves I = 0x10FF (R242, log 27). -/
theorem not_indexStaysWithinRemark : ¬ Obligations.IndexStaysWithinRemark := by
  intro h
  have hstep : step { (writeReg 0 1 State.reset).withFetchWord 16 0xF01E with I := 0x10FE } =
      .next { (writeReg 0 1 State.reset).withFetchWord 16 0xF01E with
        V := (writeReg 0xF 1 (writeReg 0 1 State.reset)).V, I := 0x10FF, PC := 0x202 } := rfl
  exact absurd (h _ _ (by decide) hstep) (by decide)

end Sys2Proof.Machine
end

section
/-! PROOF. The bytes that Fx33 and Fx55 store, the frame of memory, and code that a step stores for the next one. -/

namespace Sys2Proof.Machine

open Claims

variable {i : Instr} {s t u : State}

/-! ## The bytes stored -/

@[simp] theorem decimalDigits_length (v : Byte) : (decimalDigits v).length = 3 := rfl

@[simp] theorem regsUpTo_length (s : State) (x : RegNum) : (regsUpTo s x).length = x.val + 1 := by
  simp [regsUpTo]

theorem regsUpTo_getD (s : State) {x k : RegNum} (h : k ≤ x) : (regsUpTo s x).getD k.val 0 = readReg s k := by
  have hk : k.val < x.val + 1 := Nat.lt_succ_of_le h
  simp [regsUpTo, readReg, hk]

/-- The bytes written from `a` on stand there in order. -/
theorem Memory.read_writeBytes_at {m : Memory} {a k : Nat} {bs : List Byte} (hw : m.wf = true)
    (ha : a + bs.length ≤ 4096) (hk : k < bs.length) : (m.writeBytes a bs).read (a + k) = bs.getD k 0 := by
  simp [Memory.read_writeBytes hw ha, hk]

/-! ## The frame of memory -/

/-- A data store, halted or not, leaves every address outside its bytes alone. -/
theorem DataPost.read_other {len a : Nat} {t' : State} {bs : List Byte} (h : DataPost len s t' t)
    (ht' : t'.memory = s.memory.writeBytes s.I.toNat bs) (ha : a < s.I.toNat ∨ s.I.toNat + bs.length ≤ a) :
    t.memory.read a = s.memory.read a := by
  rcases h with ⟨-, rfl⟩ | ⟨-, rfl⟩
  · rw [ht', Memory.read_writeBytes_other _ _ ha]
  · rfl

/-- An instruction changes no byte but those R63 lists for it. -/
theorem post_memory_read {a : Nat} (h : Post i s t) (ha : storesTo i s a = false) :
    t.memory.read a = s.memory.read a := by
  cases i with
  | ldBVx x =>
    refine DataPost.read_other h (bs := decimalDigits (readReg s x)) rfl ?_
    simp [storesTo, dataAddr] at ha ⊢
    omega
  | ldMemVx x =>
    refine DataPost.read_other h (bs := regsUpTo s x) rfl ?_
    simp [storesTo, dataAddr] at ha ⊢
    omega
  | _ => rw [(post_frame h).memory (by simp) (by simp)]

/-- Settles O17: the inversion of exec and the bytes each instruction stores to. -/
theorem memoryFrame : Obligations.MemoryFrame :=
  fun _ _ _ _ h ha => post_memory_read (exec_post h) ha

/-! ## Code stored at the next instruction -/

/-- The step whose instruction leaves the core running ends in the instruction's state with the timers counted down. -/
theorem step_instr_running (hc : CanFetch s) (hf : FetchesTo s (.instr i)) (hp : Post i (advancePC s) u)
    (hr : u.status = .running) : step s = .next (tickTimers u) := by
  rw [step_of_cycle (cycle_instr hc hf hp), completeStep_running hr]

/-- Where the next word lies in memory too, a running core may fetch it. -/
theorem canFetch_next (hc : CanFetch s) (hpc : s.PC.toNat + 2 ≤ 4094) (ht : t.status = .running)
    (htp : t.PC = s.PC + 2) : CanFetch t := by
  have hadv : t.PC.toNat = s.PC.toNat + 2 := htp ▸ advancePC_PC_toNat hc
  obtain ⟨-, -, he⟩ := hc
  exact ⟨ht, by omega, by omega⟩

/-- A step that stores `bs` at I, where I is the next instruction: the core can fetch there, and finds `bs` with the old
bytes behind them. -/
theorem step_stores_next {bs : List Byte} (hc : CanFetch s) (hw : s.memory.wf = true) (hpc : s.PC.toNat + 2 ≤ 4094)
    (hI : s.I = s.PC + 2) (hlen : s.I.toNat + bs.length ≤ 4096) (hf : FetchesTo s (.instr i))
    (hp : Post i (advancePC s) u) (hr : u.status = .running) (hup : u.PC = s.PC + 2)
    (hum : u.memory = s.memory.writeBytes s.I.toNat bs) :
    ∃ t, step s = .next t ∧ CanFetch t ∧ t.PC = s.PC + 2 ∧
      (∀ k, k < bs.length → t.memory.read (t.PC.toNat + k) = bs.getD k 0) ∧
      (∀ k, bs.length ≤ k → t.memory.read (t.PC.toNat + k) = s.memory.read (t.PC.toNat + k)) := by
  have htI : (tickTimers u).PC = s.I := hup.trans hI.symm
  refine ⟨_, step_instr_running hc hf hp hr, canFetch_next hc hpc hr hup, hup, ?_, ?_⟩
  · intro k hk
    rw [htI, tickTimers_memory, hum, Memory.read_writeBytes_at hw hlen hk]
  · intro k hk
    rw [htI, tickTimers_memory, hum, Memory.read_writeBytes_other _ _ (by omega)]

/-- Fx55 into the next instruction: V0 is its first byte, and V1 its second unless only V0 is stored. -/
theorem step_ldMemVx_next {x : RegNum} (hc : CanFetch s) (hw : s.memory.wf = true) (hpc : s.PC.toNat + 2 ≤ 4094)
    (hI : s.I = s.PC + 2) (hx : s.I.toNat + x.val ≤ 0xFFF) (hf : FetchesTo s (.instr (.ldMemVx x))) :
    ∃ t, step s = .next t ∧ CanFetch t ∧ t.PC = s.PC + 2 ∧ t.memory.read t.PC.toNat = readReg s 0 ∧
      t.memory.read (t.PC.toNat + 1) = if 1 ≤ x.val then readReg s 1 else s.memory.read (t.PC.toNat + 1) := by
  have hmem : inMemory (advancePC s).I.toNat (x.val + 1) = true := (inMemory_iff _ _).mpr (.inr (by simp; omega))
  have hp : Post (.ldMemVx x) (advancePC s) _ := .inl ⟨hmem, rfl⟩
  obtain ⟨t, hst, hct, htp, hin, hout⟩ := step_stores_next (bs := regsUpTo s x) hc hw hpc hI
    (by rw [regsUpTo_length]; omega) hf hp hc.1 rfl rfl
  rw [regsUpTo_length] at hin hout
  refine ⟨t, hst, hct, htp, ?_, ?_⟩
  · exact (hin 0 (by omega)).trans (regsUpTo_getD s (Fin.zero_le x))
  · split
    · next h1 => exact (hin 1 (by omega)).trans (regsUpTo_getD (k := 1) s h1)
    · exact hout 1 (by omega)

/-- Fx33 into the next instruction: its bytes are the hundreds and the tens of V[x]. -/
theorem step_ldBVx_next {x : RegNum} (hc : CanFetch s) (hw : s.memory.wf = true) (hpc : s.PC.toNat + 2 ≤ 4094)
    (hI : s.I = s.PC + 2) (hx : s.I.toNat + 2 ≤ 0xFFF) (hf : FetchesTo s (.instr (.ldBVx x))) :
    ∃ t, step s = .next t ∧ CanFetch t ∧ t.PC = s.PC + 2 ∧
      (t.memory.read t.PC.toNat).toNat = (readReg s x).toNat / 100 ∧
      (t.memory.read (t.PC.toNat + 1)).toNat = (readReg s x).toNat / 10 % 10 := by
  have hmem : inMemory (advancePC s).I.toNat 3 = true := (inMemory_iff _ _).mpr (.inr (by simp; omega))
  have hp : Post (.ldBVx x) (advancePC s) _ := .inl ⟨hmem, rfl⟩
  obtain ⟨t, hst, hct, htp, hin, -⟩ := step_stores_next (bs := decimalDigits (readReg s x)) hc hw hpc hI
    (by rw [decimalDigits_length]; omega) hf hp hc.1 rfl rfl
  refine ⟨t, hst, hct, htp, ?_, ?_⟩
  · simpa [decimalDigits] using congrArg BitVec.toNat (hin 0 (by simp))
  · simpa [decimalDigits] using congrArg BitVec.toNat (hin 1 (by simp))

/-- Settles O45: each of the two stores leaves its first bytes where the next step fetches. -/
theorem storedCodeIsFetchedNext : Obligations.StoredCodeIsFetchedNext := by
  intro s x hc hw hpc hI
  refine ⟨fun hx hf => ?_, step_ldBVx_next hc hw hpc hI⟩
  obtain ⟨t, hst, hct, htp, h0, h1⟩ := step_ldMemVx_next hc hw hpc hI hx hf
  refine ⟨t, hst, hct, htp, h0, h1, fun hx1 => ?_⟩
  rw [if_pos hx1] at h1
  rw [FetchesTo, h0, h1]

end Sys2Proof.Machine
end

section
/-! PROOF. The opcode map (R102): which words a row selects, and that the decoder answers its rows. -/

namespace Sys2Proof

variable {w : Word} {i : Instr}

/-! ## A row's words, by their fields (R91, R92) -/

/-- Every mask of the map keeps the class nibble and the `k` lowest bits. -/
theorem and_mask_toNat {mask : Word} {k : Nat} (hk : k ≤ 12) (hm : mask.toNat = 15 * 2 ^ 12 + (2 ^ k - 1)) (w : Word) :
    (w &&& mask).toNat = w.toNat / 4096 * 4096 + w.toNat % 2 ^ k := by
  have hw := w.isLt
  have hlt : 2 ^ k - 1 < 2 ^ 12 := by have := Nat.pow_le_pow_right (n := 2) (by decide) hk; omega
  have hdvd : (2 : Nat) ^ k ∣ 4096 := Nat.pow_dvd_pow 2 hk
  have hhigh : (w &&& mask).toNat / 2 ^ 12 = w.toNat / 4096 := by
    rw [BitVec.toNat_and, Nat.and_div_two_pow, hm, show (15 * 2 ^ 12 + (2 ^ k - 1)) / 2 ^ 12 = 2 ^ 4 - 1 by omega,
      Nat.and_two_pow_sub_one_eq_mod]
    omega
  have hlow : (w &&& mask).toNat % 2 ^ 12 = w.toNat % 2 ^ k := by
    rw [BitVec.toNat_and, Nat.and_mod_two_pow, hm, show (15 * 2 ^ 12 + (2 ^ k - 1)) % 2 ^ 12 = 2 ^ k - 1 by omega,
      Nat.and_two_pow_sub_one_eq_mod, Nat.mod_mod_of_dvd _ hdvd]
  omega

/-- A row whose mask keeps the class nibble and the `k` lowest bits selects by just these. -/
theorem selects_eq {r : OpcodeRow} {k : Nat} (hk : k ≤ 12) (hm : r.mask.toNat = 15 * 2 ^ 12 + (2 ^ k - 1)) (w : Word) :
    r.selects w =
      decide ((classField w).toNat = r.pat.toNat / 4096 ∧ w.toNat % 2 ^ k = r.pat.toNat % 4096) := by
  have hlt : w.toNat % 2 ^ k < 4096 :=
    (Nat.mod_lt _ (by positivity)).trans_le (Nat.pow_le_pow_right (n := 2) (by decide) hk)
  rw [OpcodeRow.selects, Bool.eq_iff_iff, beq_iff_eq, decide_eq_true_iff, ← BitVec.toNat_inj, and_mask_toNat hk hm,
    classField_toNat]
  omega

/-- A row that matches the class alone: its match has no lower bit. -/
theorem selects_class (p : Word) (b : Word → Instr) (w : Word) :
    OpcodeRow.selects ⟨0xF000#16, p, b⟩ w = decide ((classField w).toNat = p.toNat / 4096 ∧ 0 = p.toNat % 4096) := by
  simpa only [pow_zero, Nat.mod_one] using selects_eq (r := ⟨0xF000#16, p, b⟩) (k := 0) (by decide) rfl w

/-- A row of class 8 matches the class and `n` (R97). -/
theorem selects_class_n (p : Word) (b : Word → Instr) (w : Word) :
    OpcodeRow.selects ⟨0xF00F#16, p, b⟩ w =
      decide ((classField w).toNat = p.toNat / 4096 ∧ (nField w).val = p.toNat % 4096) := by
  rw [nField_val]
  exact selects_eq (k := 4) (by decide) rfl w

/-- A row of class E or F matches the class and `nn` (R98, R99). -/
theorem selects_class_nn (p : Word) (b : Word → Instr) (w : Word) :
    OpcodeRow.selects ⟨0xF0FF#16, p, b⟩ w =
      decide ((classField w).toNat = p.toNat / 4096 ∧ (nnField w).toNat = p.toNat % 4096) := by
  rw [nnField_toNat]
  exact selects_eq (k := 8) (by decide) rfl w

/-- A row of class 0 matches the whole word (R96, D17). -/
theorem selects_word (p : Word) (b : Word → Instr) (w : Word) :
    OpcodeRow.selects ⟨0xFFFF#16, p, b⟩ w = decide (w = p) := by
  rw [OpcodeRow.selects, show (0xFFFF#16 : Word) = BitVec.allOnes 16 from rfl, BitVec.and_allOnes]
  rfl

/-! ## At most one row selects a word -/

/-- Two rows differ on a bit that both match. -/
def OpcodeRow.Disjoint (r r' : OpcodeRow) : Prop := r.pat &&& r'.mask ≠ r'.pat &&& r.mask

theorem OpcodeRow.Disjoint.not_both {r r' : OpcodeRow} (h : r.Disjoint r') (hr : r.selects w = true) :
    r'.selects w = false := by
  refine Bool.eq_false_iff.mpr fun hr' => h ?_
  rw [OpcodeRow.selects, beq_iff_eq] at hr hr'
  rw [← hr, ← hr', BitVec.and_assoc, BitVec.and_assoc, BitVec.and_comm r.mask]

theorem opcodeRows_pairwise_disjoint : opcodeRows.Pairwise OpcodeRow.Disjoint := by
  unfold OpcodeRow.Disjoint
  decide

theorem length_filter_selects_le_one (w : Word) : (opcodeRows.filter (·.selects w)).length ≤ 1 := by
  have hd := opcodeRows_pairwise_disjoint.filter (·.selects w)
  have hs : ∀ r ∈ opcodeRows.filter (·.selects w), r.selects w = true := fun r hr => (List.mem_filter.mp hr).2
  generalize opcodeRows.filter (·.selects w) = rows at hd hs ⊢
  match rows with
  | [] | [_] => simp
  | r :: r' :: _ =>
    have hr' : r'.selects w = false :=
      (List.rel_of_pairwise_cons hd List.mem_cons_self).not_both (hs r List.mem_cons_self)
    simp [hr'] at hs

/-! ## The decoder answers its rows -/

/-- The words of 00E0 and 00EE are of class 0 (R96). -/
theorem classField_class0_words : (classField 0x00E0#16).toNat = 0 ∧ (classField 0x00EE#16).toNat = 0 := by decide

theorem decode_of_selects : ∀ r ∈ opcodeRows, r.selects w = true → decode w = .instr (r.build w) := by
  simp only [opcodeRows, List.forall_mem_append]
  refine ⟨⟨⟨?low, ?class8⟩, ?high⟩, ?classEF⟩
  case low =>
    simp +contextual [opcodeRowsLow, selects_word, selects_class, decode, decodeClass0, classField_class0_words]
  case class8 => simp +contextual [opcodeRowsClass8, selects_class_n, decode, decodeClass8]
  case high => simp +contextual [opcodeRowsHigh, selects_class, decode]
  case classEF => simp +contextual [opcodeRowsEF, selects_class_nn, decode, decodeClassE, decodeClassF]

theorem decodeClass0_of_not_selects (h : ∀ r ∈ opcodeRowsLow, r.selects w = false) : decodeClass0 w = .unknown w := by
  simp [opcodeRowsLow, selects_word] at h
  simp [decodeClass0, h]

theorem decodeClass8_of_not_selects (hc : (classField w).toNat = 8)
    (h : ∀ r ∈ opcodeRowsClass8, r.selects w = false) : decodeClass8 w = .unknown w := by
  simp [opcodeRowsClass8, selects_class_n, hc] at h
  simp [decodeClass8, h]

theorem decodeClassE_of_not_selects (hc : (classField w).toNat = 14)
    (h : ∀ r ∈ opcodeRowsEF, r.selects w = false) : decodeClassE w = .unknown w := by
  simp [opcodeRowsEF, selects_class_nn, hc] at h
  simp [decodeClassE, h]

theorem decodeClassF_of_not_selects (hc : (classField w).toNat = 15)
    (h : ∀ r ∈ opcodeRowsEF, r.selects w = false) : decodeClassF w = .unknown w := by
  simp [opcodeRowsEF, selects_class_nn, hc] at h
  simp [decodeClassF, h]

theorem decode_of_not_selects (h : ∀ r ∈ opcodeRows, r.selects w = false) : decode w = .unknown w := by
  simp only [opcodeRows, List.forall_mem_append] at h
  obtain ⟨⟨⟨hlow, h8⟩, hhigh⟩, hEF⟩ := h
  unfold decode
  split
  -- Branches 1, 9, 15 and 16 are classes 0, 8, E and F; each of the others has a row for its whole class.
  case h_1 => exact decodeClass0_of_not_selects hlow
  case h_9 hc => exact decodeClass8_of_not_selects hc h8
  case h_15 hc => exact decodeClassE_of_not_selects hc hEF
  case h_16 =>
    refine decodeClassF_of_not_selects ?_ hEF
    have := (classField w).isLt
    grind
  all_goals next hc => simp [opcodeRowsLow, opcodeRowsHigh, selects_class, hc] at hlow hhigh

/-- Settles O3: a word is selected by the row it decodes by, by no second one, and by none if it is unknown. -/
theorem decoderIsOpcodeMap : Obligations.DecoderIsOpcodeMap :=
  fun w => ⟨decode_of_selects, length_filter_selects_le_one w, decode_of_not_selects⟩

theorem exists_row_of_decode (h : decode w = .instr i) : ∃ r ∈ opcodeRows, r.selects w = true ∧ r.build w = i := by
  by_cases hn : ∀ r ∈ opcodeRows, r.selects w = false
  · simp [decode_of_not_selects hn] at h
  · simp only [not_forall, Bool.not_eq_false] at hn
    obtain ⟨r, hr, hs⟩ := hn
    exact ⟨r, hr, hs, by simpa [decode_of_selects r hr hs] using h⟩

end Sys2Proof
end

section
/-! PROOF. The encoder (R92, R107): the fields of each format's word, and the two round trips. -/

namespace Sys2Proof

variable {w : Word} {base : Nat}

/-! ## The fields of an encoded word, format by format -/

section
variable (hb : base ≤ 0xF000) (h0 : base % 4096 = 0)
include hb h0

theorem fields_encodeNNN (nnn : Addr12) :
    (classField (encodeNNN base nnn)).toNat = base / 4096 ∧ nnnField (encodeNNN base nnn) = nnn := by
  have := nnn.isLt
  rw [classField_toNat, ← BitVec.toNat_inj, nnnField_toNat, encodeNNN_toNat nnn hb]
  omega

theorem fields_encodeXNN (x : RegNum) (nn : Byte) :
    (classField (encodeXNN base x nn)).toNat = base / 4096 ∧ xField (encodeXNN base x nn) = x ∧
      nnField (encodeXNN base x nn) = nn := by
  have := nn.isLt
  rw [classField_toNat, Fin.ext_iff, xField_val, ← BitVec.toNat_inj, nnField_toNat, encodeXNN_toNat x nn hb]
  omega

theorem fields_encodeXYN (x y n : Fin 16) :
    (classField (encodeXYN base x y n)).toNat = base / 4096 ∧ xField (encodeXYN base x y n) = x ∧
      yField (encodeXYN base x y n) = y ∧ nField (encodeXYN base x y n) = n := by
  simp only [classField_toNat, Fin.ext_iff, xField_val, yField_val, nField_val, encodeXYN_toNat x y n hb]
  omega
end

theorem fields_encodeX (hb : base ≤ 0xF0FF) (h0 : base % 4096 < 256) (x : RegNum) :
    (classField (encodeX base x)).toNat = base / 4096 ∧ xField (encodeX base x) = x ∧
      (nnField (encodeX base x)).toNat = base % 256 := by
  rw [classField_toNat, Fin.ext_iff, xField_val, nnField_toNat, encodeX_toNat x hb]
  omega

/-- Settles O1: the class nibble of the word selects the decoder's arm, the fixed low bits its arm in classes 8, E and F,
and the format's fields are the operands. -/
theorem decodeEncodeRoundTrip : Obligations.DecodeEncodeRoundTrip := by
  intro i
  cases i with
  | cls | ret => rfl
  | jp | call | ldI | jpV0 => simp [encode, decode, fields_encodeNNN]
  | seByte | sneByte | ldByte | addByte | rnd => simp [encode, decode, fields_encodeXNN]
  | seReg | sneReg | drw => simp [encode, decode, fields_encodeXYN]
  | ldReg | orReg | andReg | xorReg | addReg | subReg | shr | subnReg | shl =>
    simp [encode, decode, decodeClass8, fields_encodeXYN]
  | skp | sknp => simp [encode, decode, decodeClassE, fields_encodeX]
  | ldVxDT | ldVxKey | ldDTVx | ldSTVx | addIVx | ldFVx | ldBVx | ldMemVx | ldVxMem =>
    simp [encode, decode, decodeClassF, fields_encodeX]

/-! ## A word put together from its own fields -/

theorem encodeNNN_fields (h : base = (classField w).toNat * 4096) : encodeNNN base (nnnField w) = w := by
  have := w.isLt
  rw [classField_toNat] at h
  rw [← BitVec.toNat_inj, encodeNNN_toNat _ (by omega), nnnField_toNat]
  omega

theorem encodeXNN_fields (h : base = (classField w).toNat * 4096) : encodeXNN base (xField w) (nnField w) = w := by
  have := w.isLt
  rw [classField_toNat] at h
  rw [← BitVec.toNat_inj, encodeXNN_toNat _ _ (by omega), xField_val, nnField_toNat]
  omega

/-- With another low nibble in place of the word's own. -/
theorem encodeXYN_fields_toNat (h : base = (classField w).toNat * 4096) (n : Fin 16) :
    (encodeXYN base (xField w) (yField w) n).toNat = w.toNat - w.toNat % 16 + n.val := by
  have := w.isLt
  rw [classField_toNat] at h
  rw [encodeXYN_toNat _ _ _ (by omega), xField_val, yField_val]
  omega

theorem encodeXYN_fields {n : Fin 16} (h : base = (classField w).toNat * 4096) (hn : n.val = (nField w).val) :
    encodeXYN base (xField w) (yField w) n = w := by
  rw [nField_val] at hn
  rw [← BitVec.toNat_inj, encodeXYN_fields_toNat h, hn]
  omega

theorem encodeX_fields (h : base = (classField w).toNat * 4096 + (nnField w).toNat) : encodeX base (xField w) = w := by
  have := w.isLt
  rw [classField_toNat, nnField_toNat] at h
  rw [← BitVec.toNat_inj, encodeX_toNat _ (by omega), xField_val]
  omega

/-- What a row builds from a word it selects has that word, but for the low nibble that classes 5 and 9 ignore (D27). -/
theorem encode_build_toNat : ∀ r ∈ opcodeRows, r.selects w = true → (encode (r.build w)).toNat =
    if (classField w).toNat = 5 ∨ (classField w).toNat = 9 then w.toNat - w.toNat % 16 else w.toNat := by
  simp only [opcodeRows, List.forall_mem_append]
  refine ⟨⟨⟨?low, ?class8⟩, ?high⟩, ?classEF⟩
  case low =>
    simp +contextual [opcodeRowsLow, selects_word, selects_class, encode, classField_class0_words, encodeNNN_fields,
      encodeXNN_fields, encodeXYN_fields_toNat]
  case class8 => simp +contextual [opcodeRowsClass8, selects_class_n, encode, encodeXYN_fields]
  case high =>
    simp +contextual [opcodeRowsHigh, selects_class, encode, encodeNNN_fields, encodeXNN_fields, encodeXYN_fields,
      encodeXYN_fields_toNat]
  case classEF => simp +contextual [opcodeRowsEF, selects_class_nn, encode, encodeX_fields]

/-- Settles O2: the row that the word decodes by builds the instruction. -/
theorem encodeDecodeRoundTrip : Obligations.EncodeDecodeRoundTrip := by
  intro w i h
  obtain ⟨r, hr, hs, rfl⟩ := exists_row_of_decode h
  rw [encode_build_toNat r hr hs, classField_toNat]

/-- Settles O4, by running the decoder on the ten words. -/
theorem sampleWordsDecode : Obligations.SampleWordsDecode := by
  unfold Obligations.SampleWordsDecode
  decide

end Sys2Proof
end

section
/-! PROOF. The fatal conditions (R301): when the fetch and each instruction raise one, and which causes a step can raise. -/

namespace Sys2Proof.Machine

open Claims

variable {p : Params} {i : Instr} {c : Cause} {s t : State}

/-- A cause that a step can raise: the other two are those of loadProgram (R301, R346, R347). -/
def IsStepCause (c : Cause) : Prop := c ≠ .capacityExceeded ∧ c ≠ .ioFailure

/-! ## The fetch -/

theorem fetch_pcOutOfRange (h : 4094 < s.PC.toNat) : fetch p s = .fatal .pcOutOfRange := by
  simp [fetch, h]

theorem fetch_pcMisaligned (hr : s.PC.toNat ≤ 4094) (ho : s.PC.toNat % 2 = 1) (hp : p.oddPcPolicy = .fault) :
    fetch p s = .fatal .pcMisaligned := by
  simp [fetch, Nat.not_lt.mpr hr, ho, hp]

theorem isStepCause_of_fetch (h : fetch p s = .fatal c) : IsStepCause c := by
  unfold fetch at h
  split at h
  · cases h; exact ⟨nofun, nofun⟩
  · split at h
    · cases h; exact ⟨nofun, nofun⟩
    · cases h

/-! ## The instructions -/

/-- An instruction with no fatal cause keeps the status, and one with a cause halts with it and changes nothing else. -/
theorem post_fatalCause (h : Post i s t) :
    (fatalCause i s = none ∧ t.status = s.status) ∨ (∃ c, fatalCause i s = some c ∧ t = haltWith c s) := by
  cases i with
  | ret | call =>
    rcases h with ⟨hsp, rfl⟩ | ⟨hsp, rfl⟩
    · exact .inl ⟨if_neg (by omega), rfl⟩
    · exact .inr ⟨_, if_pos hsp, rfl⟩
  | drw | ldBVx | ldMemVx | ldVxMem =>
    rcases h with ⟨hm, rfl⟩ | ⟨hm, rfl⟩
    · rw [inMemory_iff] at hm
      exact .inl ⟨if_neg (by simp only [dataAddr]; omega), rfl⟩
    · rw [← Bool.not_eq_true, inMemory_iff] at hm
      exact .inr ⟨_, if_pos (by simp only [dataAddr]; omega), rfl⟩
  | skp | sknp =>
    rcases h with ⟨k, hk, rfl⟩ | ⟨hx, rfl⟩
    · exact .inl ⟨if_neg (by omega), skipIf_status ..⟩
    · exact .inr ⟨_, if_pos hx, rfl⟩
  | ldVxKey => rcases h with ⟨k, -, rfl⟩ | ⟨-, rfl⟩ <;> exact .inl ⟨rfl, rfl⟩
  | _ => cases h; exact .inl ⟨rfl, by simp⟩

theorem isStepCause_of_fatalCause (h : fatalCause i s = some c) : IsStepCause c := by
  cases i with
  | ret | call | drw | ldBVx | ldMemVx | ldVxMem | skp | sknp =>
    obtain ⟨-, hc⟩ := Option.ite_none_right_eq_some.mp h
    cases hc
    exact ⟨nofun, nofun⟩
  | _ => cases h

/-- An instruction that halts a running core does so with a cause of its own. -/
theorem isStepCause_of_post (h : Post i s t) (hs : s.status = .running) (ht : t.status = .halted c) :
    IsStepCause c := by
  rcases post_fatalCause h with ⟨-, hst⟩ | ⟨c', hc, rfl⟩
  · simp [hst, hs] at ht
  · obtain rfl : c' = c := Status.halted.inj ht
    exact isStepCause_of_fatalCause hc

end Sys2Proof.Machine
end

section
/-! PROOF. The step cycle (R120 to R133): what a step makes of each fetch and of the state that its word left. -/

namespace Sys2Proof.Machine

open Claims

variable {p : Params} {run : Instr → State → Result} {i : Instr} {w : Word} {c : Cause} {s t u : State}

theorem ticked_tickTimers (s : State) : Ticked s (tickTimers s) :=
  ⟨rfl, countDown_toNat _, countDown_toNat _⟩

/-- The countdown as R127 and R128 write it. -/
theorem countDown_toNat_eq_ite (b : Byte) : (countDown b).toNat = if 0 < b.toNat then b.toNat - 1 else 0 := by
  rw [countDown_toNat]
  split <;> omega

/-! ## The step under any parameters (R9) -/

/-- The step of this hardware is the one under its parameters. -/
theorem stepWith_params : stepWith params = step := by
  funext s
  rw [stepWith, execWith_params]
  rfl

theorem stepWith_fatal (hs : s.status = .running) (hf : fetch p s = .fatal c) : stepWith p s = .next (haltWith c s) := by
  rw [stepWith, cycleWith_fatal hs hf]
  rfl

theorem stepWith_pcOutOfRange (hs : s.status = .running) (h : 4094 < s.PC.toNat) :
    stepWith p s = .next (haltWith .pcOutOfRange s) :=
  stepWith_fatal hs (fetch_pcOutOfRange h)

theorem stepWith_pcMisaligned (hs : s.status = .running) (hr : s.PC.toNat ≤ 4094) (ho : s.PC.toNat % 2 = 1)
    (hp : p.oddPcPolicy = .fault) : stepWith p s = .next (haltWith .pcMisaligned s) :=
  stepWith_fatal hs (fetch_pcMisaligned hr ho hp)

theorem runWord_instr (hd : decode w = .instr i) : runWord run s w = settle s (run i (advancePC s)) := by
  simp [runWord, hd]

theorem runWord_unknown {v : Word} (hd : decode w = .unknown v) :
    runWord run s w = .next (completeStep s (advancePC s) (some v)) := by
  simp [runWord, hd]

/-- Where the fetch's checks pass, an instruction at PC is executed with PC past it, and its state ends the step. -/
theorem stepWith_instr (hs : s.status = .running) (hr : s.PC.toNat ≤ 4094)
    (ha : s.PC.toNat % 2 = 0 ∨ p.oddPcPolicy = .fetch) (hf : FetchesTo s (.instr i))
    (he : execWith p i (advancePC s) = .next t) : stepWith p s = .next (completeStep s t none).1 := by
  rw [stepWith, cycleWith_word hs (fetch_word hr ha), runWord_instr hf, he]
  rfl

/-- Where the fetch's checks pass, an unknown word at PC is moved past and the timers count down. -/
theorem stepWith_unknown (hs : s.status = .running) (hr : s.PC.toNat ≤ 4094)
    (ha : s.PC.toNat % 2 = 0 ∨ p.oddPcPolicy = .fetch) (hf : FetchesTo s (.unknown w)) :
    stepWith p s = .next (tickTimers (advancePC s)) := by
  rw [stepWith, cycleWith_word hs (fetch_word hr ha), runWord_unknown hf,
    completeStep_running (t := advancePC s) hs]
  rfl

/-- The two ends of a step whose instruction left `t`, as the statements have them: the timers counted down, or the state
it began in halted (R125, R127, R128). -/
theorem completeStep_ends {r : Result} {x : Option Word} (h : r = .next (completeStep s t x).1) :
    (t.status = .running → ∃ u, r = .next u ∧ Ticked t u) ∧
    (∀ c, t.status = .halted c → r = .next { s with status := .halted c }) := by
  subst h
  refine ⟨fun hr => ⟨_, rfl, ?_⟩, fun c hh => ?_⟩
  · rw [completeStep_running hr]
    exact ticked_tickTimers t
  · rw [completeStep_halted hh]
    rfl

/-! ## The step of this hardware -/

/-- What the statements say of a word that runs: exec's answer for an instruction, PC moved by 2 for an unknown word. -/
theorem runsWord_iff : RunsWord s u ↔
    (∃ i, FetchesTo s (.instr i) ∧ exec i { s with PC := s.PC + 2 } = .next u) ∨
    (∃ w, FetchesTo s (.unknown w) ∧ u = { s with PC := s.PC + 2 }) :=
  or_congr_left (exists_congr fun _ => and_congr_right fun _ => ⟨exec_of_post, exec_post⟩)

/-- The cycle whose word leaves a running state counts its timers down and beeps exactly if its ST is 1 (R127, R128). -/
theorem cycle_runsWord (hc : CanFetch s) (h : RunsWord s u) (hu : u.status = .running) :
    ∃ x, cycle s = .next (tickTimers u, ⟨x, u.ST == 1⟩) := by
  rcases h with ⟨i, hf, hp⟩ | ⟨w, hf, rfl⟩
  · exact ⟨none, by rw [cycle_instr hc hf hp, completeStep_running hu]⟩
  · exact ⟨some w, by rw [cycle_unknown hc hf, completeStep_running hu]⟩

/-- The step of such a cycle, with its Beep. -/
theorem step_runsWord (hc : CanFetch s) (h : RunsWord s u) (hu : u.status = .running) :
    step s = .next (tickTimers u) ∧ (signals s).beep = (u.ST == 1) := by
  obtain ⟨x, hx⟩ := cycle_runsWord hc h hu
  exact ⟨step_of_cycle hx, by rw [signals_of_cycle hx]⟩

/-- The two ways a running core's cycle goes: it halts with a step's cause, silent and otherwise unchanged (R125), or it
completes its word. -/
theorem cycle_running_cases (hs : s.status = .running) :
    (∃ c, IsStepCause c ∧ cycle s = .next (haltWith c s, noSignals)) ∨
    (∃ u, CanFetch s ∧ RunsWord s u ∧ u.status = .running) := by
  rcases cycle_cases s with ⟨c, hh⟩ | ⟨-, c, hf⟩ | ⟨i, u, hc, hf, hp⟩ | ⟨w, hc, hf⟩
  · simp [hs] at hh
  · exact .inl ⟨c, isStepCause_of_fetch hf, cycleWith_fatal hs hf⟩
  · cases hu : u.status with
    | running => exact .inr ⟨u, hc, .inl ⟨i, hf, hp⟩, hu⟩
    | halted c =>
      exact .inl ⟨c, isStepCause_of_post hp hs hu, by rw [cycle_instr hc hf hp, completeStep_halted hu]⟩
  · exact .inr ⟨_, hc, .inr ⟨w, hf, rfl⟩, hs⟩

/-! ## The statements -/

/-- Settles O5: the cycle ends with the state that the decoded instruction leaves. -/
theorem stepRunsDecodedInstruction : Obligations.StepRunsDecodedInstruction :=
  fun _ _ _ hc hf he => completeStep_ends (step_of_cycle (cycle_instr hc hf (exec_post he)))

/-- Settles O6: the word at PC is the one the cycle runs. -/
theorem fetchIsBigEndianAndAdvances : Obligations.FetchIsBigEndianAndAdvances := by
  intro s hc
  refine ⟨_, wordOfBytes_toNat _ _, fun i hd => ?_, fun v hd => ?_⟩
  · rw [cycle_canFetch hc]
    exact runWord_instr hd
  · have hr : RunsWord s (advancePC s) := .inr ⟨v, hd, rfl⟩
    exact ⟨_, (step_runsWord hc hr hc.1).1, ticked_tickTimers _⟩

/-- Settles O8: the fetch's checks under any parameters, of which this hardware's are the fault policy's. -/
theorem badFetchAddressHalts : Obligations.BadFetchAddressHalts := by
  intro s hs
  refine ⟨fun h => ?_, fun hr ho => ?_, fun p => ⟨stepWith_pcOutOfRange hs, stepWith_pcMisaligned hs, fun hr _ hp => ?_⟩⟩
  · exact stepWith_params ▸ stepWith_pcOutOfRange hs h
  · exact stepWith_params ▸ stepWith_pcMisaligned hs hr ho rfl
  · refine ⟨fun i hf => ?_, fun w hf => ⟨_, stepWith_unknown hs hr (.inr hp) hf, ticked_tickTimers _⟩⟩
    obtain ⟨t, he⟩ := execWith_total p i (advancePC s)
    exact ⟨t, he, completeStep_ends (stepWith_instr hs hr (.inr hp) hf he)⟩

/-- Settles O9: a halted core's cycle answers its own state, silently. -/
theorem haltedCoreIsInert : Obligations.HaltedCoreIsInert := by
  intro s c hs
  have hcycle : cycle s = .next (s, noSignals) := cycleWith_halted hs
  exact ⟨step_of_cycle hcycle, signals_of_cycle hcycle⟩

/-- Settles O10: a running core's step that does not complete its word halts the core and does nothing else. -/
theorem fatalStepsArePrecise : Obligations.FatalStepsArePrecise := by
  intro s t c hs h ht
  rcases cycle_running_cases hs with ⟨c', hcause, hcycle⟩ | ⟨u, hc, hr, hu⟩
  · obtain rfl : haltWith c' s = t := Host.Outcome.next.inj ((step_of_cycle hcycle).symm.trans h)
    obtain rfl : c' = c := Status.halted.inj ht
    exact ⟨rfl, signals_of_cycle hcycle, hcause⟩
  · obtain rfl : tickTimers u = t := Host.Outcome.next.inj ((step_runsWord hc hr hu).1.symm.trans h)
    simp [hu] at ht

/-- Settles O12: a halted core's step, and the two ways of a running core's. -/
theorem everyStepCompletes : Obligations.EveryStepCompletes := by
  intro s
  by_cases hs : s.status = .running
  · rcases cycle_running_cases hs with ⟨c, -, hcycle⟩ | ⟨u, hc, hr, hu⟩
    · exact ⟨_, step_of_cycle hcycle, .inr (.inl ⟨hs, c, rfl⟩)⟩
    · exact ⟨_, (step_runsWord hc hr hu).1, .inr (.inr ⟨hc, u, ticked_tickTimers u, hu, runsWord_iff.mp hr⟩)⟩
  · obtain ⟨c, hh⟩ := (status_ne_running_iff _).mp hs
    exact ⟨s, (haltedCoreIsInert s c hh).1, .inl ⟨c, hh, rfl⟩⟩

/-- Settles O51: the instruction's state is the one whose timers the step counts down. -/
theorem timerWritesCountInTheirOwnStep : Obligations.TimerWritesCountInTheirOwnStep := by
  intro s x hc
  refine ⟨fun hf => ?ldDTVx, fun hf => ?ldSTVx, fun hf => ?ldVxDT⟩
  case ldDTVx =>
    obtain ⟨hstep, -⟩ := step_runsWord hc (.inl ⟨_, hf, rfl⟩) hc.1
    exact ⟨_, hstep, countDown_toNat _⟩
  case ldSTVx =>
    obtain ⟨hstep, hbeep⟩ := step_runsWord hc (.inl ⟨_, hf, rfl⟩) hc.1
    exact ⟨_, hstep, countDown_toNat _, by simp [hbeep]⟩
  case ldVxDT =>
    obtain ⟨hstep, -⟩ := step_runsWord hc (.inl ⟨_, hf, rfl⟩) hc.1
    exact ⟨_, hstep, by simp, countDown_toNat _⟩

/-- Settles O52: what the statement says of `u` is that the word at PC leaves it, so the step counts its timers down. -/
theorem timersCountDownOnceAStep : Obligations.TimersCountDownOnceAStep := by
  intro s u hc hu hw
  obtain ⟨hstep, hbeep⟩ := step_runsWord hc (runsWord_iff.mpr hw) hu
  refine ⟨_, hstep, countDown_toNat_eq_ite _, countDown_toNat_eq_ite _, ?_⟩
  rw [hbeep, beq_iff_eq, ← BitVec.toNat_inj]
  rfl

end Sys2Proof.Machine
end

section
/-! PROOF. The display (R150 to R152): drawing a sprite inverts the cells that its set bits fall on, and drawing it again. -/

namespace Sys2Proof.Machine

open Claims

variable {p : Params} {e : DrawEdge} {x y : RegNum} {n : Fin 16} {s t : State}

/-- Settles O22: 00E0 leaves the blank framebuffer, whose every pixel is 0. -/
theorem clsClearsEveryPixel : Obligations.ClsClearsEveryPixel :=
  ⟨by decide, fun s => ⟨setFb blankFb s, rfl, pixel_blankFb, rfl⟩⟩

/-! ## Where a coordinate falls (R151) -/

theorem place_eq_some_iff {R C : Nat} {r : Fin 32} {c : Fin 64} : place e R C = some (r, c) ↔ Lands e R C r c := by
  cases e with
  | wrap => simp [place, Lands, Fin.ext_iff]
  | clip =>
    simp only [place, Lands, Option.dite_none_right_eq_some, exists_prop, Option.some.injEq, Prod.mk.injEq,
      Fin.ext_iff]
    omega

/-- Two rows of one sprite never fall on the same row of the grid, which is taller than any sprite. -/
theorem lands_row_inj {R i j C C' : Nat} {r : Fin 32} {c : Fin 64} (hi : i < 32) (hj : j < 32)
    (h : Lands e (R + i) C r c) (h' : Lands e (R + j) C' r c) : i = j := by
  cases e <;> simp only [Lands] at h h' <;> omega

/-- Two bits of one row never fall on the same column of the grid, which is wider than any row. -/
theorem lands_column_inj {R R' C i j : Nat} {r : Fin 32} {c : Fin 64} (hi : i < 64) (hj : j < 64)
    (h : Lands e R (C + i) r c) (h' : Lands e R' (C + j) r c) : i = j := by
  cases e <;> simp only [Lands] at h h' <;> omega

/-! ## Drawing inverts a set of cells -/

/-- A drawing that inverts the cells of `hit` and no other, and collides on those of them that were set. -/
structure Inverts (hit : Fin 32 → Fin 64 → Prop) (cv cv' : Canvas) : Prop where
  inside    : ∀ r c, hit r c → pixel cv'.fb r c = !pixel cv.fb r c
  outside   : ∀ r c, ¬ hit r c → pixel cv'.fb r c = pixel cv.fb r c
  collision : cv'.collision = true ↔ cv.collision = true ∨ ∃ r c, hit r c ∧ pixel cv.fb r c = true

section
variable {A B D : Fin 32 → Fin 64 → Prop} {cv cv₁ cv₂ : Canvas}

/-- Drawing nothing inverts the cells of an empty set. -/
theorem Inverts.of_empty (h : ∀ r c, ¬ A r c) : Inverts A cv cv where
  inside r c ha := absurd ha (h r c)
  outside _ _ _ := rfl
  collision := by simp [h]

/-- Drawing on two sets of cells, one after the other, draws on their union where they share no cell. -/
theorem Inverts.append (ha : Inverts A cv cv₁) (hb : Inverts B cv₁ cv₂) (hdisj : ∀ r c, A r c → ¬ B r c)
    (hunion : ∀ r c, D r c ↔ A r c ∨ B r c) : Inverts D cv cv₂ where
  inside r c hd := by
    rcases (hunion r c).mp hd with h | h
    · rw [hb.outside r c (hdisj r c h), ha.inside r c h]
    · rw [hb.inside r c h, ha.outside r c fun h' => hdisj r c h' h]
  outside r c hd := by
    obtain ⟨hna, hnb⟩ := not_or.mp (mt (hunion r c).mpr hd)
    rw [hb.outside r c hnb, ha.outside r c hna]
  collision := by
    have kept : ∀ r c, B r c ∧ pixel cv₁.fb r c = true ↔ B r c ∧ pixel cv.fb r c = true := fun r c =>
      and_congr_right fun h => by rw [ha.outside r c fun h' => hdisj r c h' h]
    simp only [hb.collision, ha.collision, kept, hunion, or_and_right, exists_or, or_assoc]
end

/-! ## A bit, a row, a sprite (R152) -/

theorem inverts_drawBit (e : DrawEdge) (R C : Nat) (on : Bool) (cv : Canvas) :
    Inverts (fun r c => on = true ∧ Lands e R C r c) cv (drawBit e R C on cv) := by
  cases on with
  | false => exact .of_empty (by simp)
  | true =>
    cases h : place e R C with
    | none =>
      have hcv : drawBit e R C true cv = cv := by simp [drawBit, h]
      rw [hcv]
      exact .of_empty (by simp [← place_eq_some_iff, h])
    | some q =>
      obtain ⟨r₀, c₀⟩ := q
      have hcv : drawBit e R C true cv = ⟨togglePixel cv.fb r₀ c₀, cv.collision || pixel cv.fb r₀ c₀⟩ := by
        simp [drawBit, h]
      have hit : ∀ r c, Lands e R C r c ↔ r = r₀ ∧ c = c₀ := by
        simp [← place_eq_some_iff, h, eq_comm]
      simp only [hcv, hit, true_and]
      constructor
      · rintro r c ⟨rfl, rfl⟩
        simp [pixel_togglePixel]
      · intro r c hrc
        rw [pixel_togglePixel, ← Bool.decide_and, decide_eq_false hrc, Bool.xor_false]
      · simp

/-- The cells that the set bits among the first `k` of a sprite byte fall on. -/
def RowCovers (e : DrawEdge) (R C : Nat) (b : Byte) (k : Nat) (r : Fin 32) (c : Fin 64) : Prop :=
  ∃ bit < k, b.getLsbD (7 - bit) = true ∧ Lands e R (C + bit) r c

/-- The cells that the set bits of the `len` sprite bytes from address `a` on fall on. -/
def RowsCover (e : DrawEdge) (R C : Nat) (m : Memory) (a len : Nat) (r : Fin 32) (c : Fin 64) : Prop :=
  ∃ row < len, RowCovers e (R + row) C (m.read (a + row)) 8 r c

theorem covers_eq_rowsCover (e : DrawEdge) (x y : RegNum) (n : Nat) (s : State) :
    Covers e x y n s = RowsCover e (readReg s y).toNat (readReg s x).toNat s.memory s.I.toNat n := by
  funext r c
  simp only [Covers, RowsCover, RowCovers, exists_and_left]

theorem spriteBit_eq_getLsbD {b : Byte} {bit : Nat} (h : bit < 8) : spriteBit b bit = b.getLsbD (7 - bit) := by
  simp [spriteBit, BitVec.getMsbD, h]

/-- The first `k` bits of a row, by the loop of R152. -/
theorem inverts_drawBits (e : DrawEdge) (R C : Nat) (b : Byte) (cv : Canvas) (k : Nat) (hk : k ≤ 8) :
    Inverts (RowCovers e R C b k) cv
      ((List.range k).foldl (fun cv bit => drawBit e R (C + bit) (spriteBit b bit) cv) cv) := by
  induction k with
  | zero => exact .of_empty (by simp [RowCovers])
  | succ k ih =>
    rw [List.range_succ, List.foldl_append]
    refine (ih (by omega)).append (inverts_drawBit e R (C + k) (spriteBit b k) _) ?_ ?_
    · rintro r c ⟨bit, hbit, -, hl⟩ ⟨-, hl'⟩
      have := lands_column_inj (by omega) (by omega) hl hl'
      omega
    · intro r c
      simp only [RowCovers, Nat.exists_lt_succ_right, spriteBit_eq_getLsbD (Nat.lt_of_succ_le hk)]

theorem inverts_drawRow (e : DrawEdge) (R C : Nat) (b : Byte) (cv : Canvas) :
    Inverts (RowCovers e R C b 8) cv (drawRow e R C b cv) :=
  inverts_drawBits e R C b cv 8 le_rfl

theorem inverts_drawRows (e : DrawEdge) (C : Nat) (m : Memory) (len : Nat) (hlen : len ≤ 32) (R a : Nat) (cv : Canvas) :
    Inverts (RowsCover e R C m a len) cv (drawRows e C R (m.readBytes a len) cv) := by
  induction len generalizing R a cv with
  | zero => exact .of_empty (by simp [RowsCover])
  | succ len ih =>
    refine (inverts_drawRow e R C (m.read a) cv).append (ih (by omega) (R + 1) (a + 1) _) ?_ ?_
    · rintro r c ⟨bit, -, -, hl⟩ ⟨row, hrow, bit', -, -, hl'⟩
      rw [Nat.add_assoc] at hl'
      have := lands_row_inj (i := 0) (by omega) (by omega) hl hl'
      omega
    · intro r c
      simp only [RowsCover, Nat.exists_lt_succ_left, Nat.add_zero, Nat.add_assoc, Nat.add_comm 1]

theorem inverts_drawSprite (p : Params) (x y : RegNum) (n : Fin 16) (s : State) :
    Inverts (Covers p.drawEdge x y n.val s) ⟨s.fb, false⟩ (drawSprite p x y n s) := by
  rw [covers_eq_rowsCover]
  exact inverts_drawRows _ _ _ _ (by omega) _ _ _

/-! ## Dxyn -/

/-- The state that commits a drawn sprite does what R152 says. -/
theorem drawsSprite_of_inverts {n : Nat} {cv : Canvas} (h : Inverts (Covers e x y n s) ⟨s.fb, false⟩ cv) :
    DrawsSprite e x y n s (setFlag cv.collision (setFb cv.fb s)) := by
  have hcol : cv.collision = true ↔ ∃ r c, Covers e x y n s r c ∧ pixel s.fb r c = true := by
    simpa using h.collision
  refine ⟨h.inside, h.outside, fun hs => ?_, fun hs => ?_, fun k hk => ?_, rfl⟩
  · simp [readReg_setFlag, flagByte, hcol.mpr hs]
  · simp [readReg_setFlag, flagByte, Bool.eq_false_iff.mpr (mt hcol.mp hs)]
  · simp [readReg_setFlag, hk]

theorem execDrwWith_drawsSprite (p : Params) (x y : RegNum) (hm : n = 0 ∨ s.I.toNat + n.val ≤ 4096) :
    ∃ t, execDrwWith p x y n s = .next t ∧ DrawsSprite p.drawEdge x y n.val s t := by
  have hin : inMemory s.I.toNat n.val = true := (inMemory_iff _ _).mpr (hm.imp_left (congrArg Fin.val))
  exact ⟨_, if_pos hin, drawsSprite_of_inverts (inverts_drawSprite p x y n s)⟩

/-- Settles O23: exec runs Dxyn under this hardware's parameters, whose edge wraps. -/
theorem drwInvertsCoveredPixels : Obligations.DrwInvertsCoveredPixels :=
  fun x y _ _ hm => ⟨execDrwWith_drawsSprite params x y hm, fun p => execDrwWith_drawsSprite p x y hm⟩

theorem drawsSprite_of_exec (hm : n = 0 ∨ s.I.toNat + n.val ≤ 4096) (h : exec (.drw x y n) s = .next t) :
    DrawsSprite .wrap x y n.val s t := by
  obtain ⟨t', ht', hd⟩ := (drwInvertsCoveredPixels x y n s hm).1
  obtain rfl : t' = t := Host.Outcome.next.inj (ht'.symm.trans h)
  exact hd

/-! ## Drawing the same sprite again -/

/-- VF after a draw tells exactly whether a covered pixel was set. -/
theorem readReg_flag_eq_one_iff {n : Nat} (h : DrawsSprite e x y n s t) :
    readReg t 0xF = 1 ↔ ∃ r c, Covers e x y n s r c ∧ pixel s.fb r c = true := by
  obtain ⟨-, -, hset, hclear, -, -⟩ := h
  refine ⟨fun h1 => by_contra fun hn => ?_, hset⟩
  simp [hclear hn] at h1

/-- After a draw that left the coordinates as they were, the sprite covers the same cells. -/
theorem covers_after_draw {n : Nat} (h : DrawsSprite e x y n s t) (hx : readReg t x = readReg s x)
    (hy : readReg t y = readReg s y) (r : Fin 32) (c : Fin 64) : Covers e x y n t r c ↔ Covers e x y n s r c := by
  obtain ⟨-, -, -, -, -, ht⟩ := h
  have hmem : t.memory = s.memory := by rw [ht]
  have hI : t.I = s.I := by rw [ht]
  simp only [Covers, hx, hy, hmem, hI]

theorem byte_ne_zero_iff (b : Byte) : b ≠ 0 ↔ ∃ bit < 8, b.getLsbD (7 - bit) = true := by
  constructor
  · intro hb
    by_contra hall
    push Not at hall
    refine hb (BitVec.eq_of_getLsbD_eq fun i hi => ?_)
    have := hall (7 - i) (by omega)
    rw [Nat.sub_sub_self (by omega)] at this
    simpa using this
  · rintro ⟨bit, -, hbit⟩ rfl
    simp at hbit

/-- Where the grid wraps, every set bit of a sprite covers a cell. -/
theorem exists_covers_wrap_iff {n : Nat} :
    (∃ r c, Covers .wrap x y n s r c) ↔ ∃ row < n, s.memory.read (s.I.toNat + row) ≠ 0 := by
  simp only [byte_ne_zero_iff]
  constructor
  · rintro ⟨r, c, row, bit, hrow, hbit, hset, -⟩
    exact ⟨row, hrow, bit, hbit, hset⟩
  · rintro ⟨row, hrow, bit, hbit, hset⟩
    exact ⟨⟨_, Nat.mod_lt _ (by decide)⟩, ⟨_, Nat.mod_lt _ (by decide)⟩, row, bit, hrow, hbit, hset, rfl, rfl⟩

/-- Settles O24: the second draw covers the cells of the first, which has inverted them. -/
theorem drawingTwiceRestores : Obligations.DrawingTwiceRestores := by
  intro x y n s t u hm hst hx hy htu
  have h₁ := drawsSprite_of_exec hm hst
  have hI : t.I = s.I := (post_frame (exec_post hst)).I rfl
  have h₂ := drawsSprite_of_exec (hI ▸ hm) htu
  have hcov := covers_after_draw h₁ hx hy
  have hflag : readReg u 0xF = 1 ↔ ∃ r c, Covers .wrap x y n.val s r c ∧ pixel s.fb r c = false := by
    obtain ⟨inside, -⟩ := h₁
    rw [readReg_flag_eq_one_iff h₂]
    refine exists₂_congr fun r c => ?_
    rw [hcov]
    exact and_congr_right fun hc => by rw [inside r c hc, Bool.not_eq_true']
  refine ⟨fb_eq_of_pixel fun r c => ?_, hflag, fun hclear => ?_⟩
  · obtain ⟨inside₁, outside₁, -⟩ := h₁
    obtain ⟨inside₂, outside₂, -⟩ := h₂
    by_cases hc : Covers .wrap x y n.val s r c
    · rw [inside₂ r c ((hcov r c).mpr hc), inside₁ r c hc, Bool.not_not]
    · rw [outside₂ r c (mt (hcov r c).mp hc), outside₁ r c hc]
  · rw [hflag, ← exists_covers_wrap_iff]
    exact exists₂_congr fun r c => and_iff_left_of_imp (hclear r c)

/-- Refutes O25: where the top row of glyph 0 stands at the origin already, drawing it there unsets it, which collides, and
drawing it again sets it, which does not (R152, log 28). -/
theorem not_secondDrawAlwaysCollides : ¬ Obligations.SecondDrawAlwaysCollides := by
  intro h
  have first : exec (.drw 0 1 1) { State.reset with fb := blankFb.set 0 0x0F } = .next (writeReg 0xF 1 State.reset) := rfl
  have second : exec (.drw 0 1 1) (writeReg 0xF 1 State.reset) =
      .next { State.reset with fb := blankFb.set 0 0x0F } := rfl
  exact absurd (h _ _ _ _ _ _ (.inr (by decide)) first rfl rfl second ⟨0, by decide, by decide⟩) (by decide)

end Sys2Proof.Machine
end

section
/-! PROOF. Control flow (R170 to R184): the jumps, the skips, the call and the return, and a return at a call's target. -/

namespace Sys2Proof.Machine

open Claims

variable {s : State}

/-! ## The jumps -/

@[simp] theorem addrOperand_toNat (nnn : Addr12) : (addrOperand nnn).toNat = nnn.toNat := by
  simp [addrOperand]; omega

/-- The sum of V0 and an address fits in 16 bits, so that it needs no mask (D28). -/
theorem zext16_add_addrOperand_toNat (v : Byte) (nnn : Addr12) :
    (zext16 v + addrOperand nnn).toNat = v.toNat + nnn.toNat := by
  simp [zext16]; omega

/-- Settles O26: each answers the state with PC alone assigned, and its word is the one that encodes it. -/
theorem jumpsAssignPC : Obligations.JumpsAssignPC := fun nnn s =>
  ⟨⟨setPC (addrOperand nnn) s, rfl, addrOperand_toNat nnn, rfl⟩,
   ⟨setPC (zext16 (readReg s 0) + addrOperand nnn) s, rfl, zext16_add_addrOperand_toNat _ _, rfl⟩,
   decodeEncodeRoundTrip (.jp nnn), decodeEncodeRoundTrip (.jpV0 nnn)⟩

/-! ## The skips -/

/-- A skip changes PC alone (R175). -/
theorem skipIf_eq (c : Bool) (s : State) : skipIf c s = { s with PC := if c then s.PC + 2 else s.PC } := by
  cases c <;> rfl

theorem skipIf_beq (a b : Byte) (s : State) :
    skipIf (a == b) s = { s with PC := if a = b then s.PC + 2 else s.PC } := by
  simp [skipIf_eq]

theorem skipIf_bne (a b : Byte) (s : State) :
    skipIf (a != b) s = { s with PC := if a = b then s.PC else s.PC + 2 } := by
  simp [skipIf_eq]

/-- Settles O27: the two skips on the register and the immediate. -/
theorem immediateSkips : Obligations.ImmediateSkips := fun x nn s =>
  ⟨exec_of_post (skipIf_beq _ _ s).symm, exec_of_post (skipIf_bne _ _ s).symm,
   decodeEncodeRoundTrip (.seByte x nn), decodeEncodeRoundTrip (.sneByte x nn)⟩

/-- Classes 5 and 9 decode by their class and their two registers, so every low nibble gives the same instruction (D27). -/
theorem decode_registerSkip (x y n : Fin 16) :
    decode (encodeXYN 0x5000 x y n) = .instr (.seReg x y) ∧ decode (encodeXYN 0x9000 x y n) = .instr (.sneReg x y) := by
  constructor <;> simp [decode, fields_encodeXYN]

/-- Settles O28: the two skips on a pair of registers. -/
theorem registerSkips : Obligations.RegisterSkips := fun x y n s =>
  ⟨exec_of_post (skipIf_beq _ _ s).symm, exec_of_post (skipIf_bne _ _ s).symm, decode_registerSkip x y n⟩

/-! ## The call and the return -/

/-- Settles O29: the state that the call leaves with a free slot, and the halt without one. -/
theorem callPushesReturnAddress : Obligations.CallPushesReturnAddress := by
  intro nnn s
  refine
    ⟨fun hsp => ⟨_, exec_of_post (.inl ⟨hsp, rfl⟩), ?slot, rfl, addrOperand_toNat nnn, fun k hk => ?others, rfl⟩,
     fun hsp => exec_of_post (.inr ⟨hsp, rfl⟩)⟩
  case slot => exact Vector.getElem_set_self hsp
  case others => exact Vector.getElem_set_ne hsp k.isLt hk.symm

/-- Settles O30: the state that the return leaves with an active slot, and the halt without one. -/
theorem returnPopsLastSlot : Obligations.ReturnPopsLastSlot := fun _ =>
  ⟨fun hsp => ⟨_, exec_of_post (.inl ⟨hsp, rfl⟩), rfl, rfl, rfl⟩, fun hsp => exec_of_post (.inr ⟨hsp, rfl⟩)⟩

/-! ## A call and the return at its target, as whole steps -/

theorem step_call {nnn : Addr12} (hc : CanFetch s) (hf : FetchesTo s (.instr (.call nnn))) (hsp : s.SP.val < 16) :
    step s = .next (tickTimers { s with
      SP := ⟨s.SP.val + 1, by omega⟩, stack := s.stack.set s.SP.val (s.PC + 2), PC := addrOperand nnn }) :=
  step_instr_running hc hf (.inl ⟨hsp, rfl⟩) hc.1

theorem step_ret (hc : CanFetch s) (hf : FetchesTo s (.instr .ret)) (hsp : 0 < s.SP.val) :
    step s = .next (tickTimers { s with
      SP := ⟨s.SP.val - 1, by omega⟩, PC := s.stack[s.SP.val - 1]'(by have := s.SP.isLt; omega) }) :=
  step_instr_running hc hf (.inl ⟨hsp, rfl⟩) hc.1

/-- Settles O31: the call leaves a state that can fetch the return, and the return pops the slot that the call pushed. -/
theorem callThenReturnRoundTrip : Obligations.CallThenReturnRoundTrip := by
  intro s nnn hc hsp hle heven hcall hret
  have hpc := addrOperand_toNat nnn
  refine ⟨_, _, step_call hc hcall hsp, step_ret ?canFetch ?fetches (Nat.succ_pos _), hpc, ?popped, rfl, rfl,
    rfl, rfl, rfl, hc.1⟩
  case canFetch => exact ⟨hc.1, hpc.trans_le hle, hpc.symm ▸ heven⟩
  case fetches => simpa [FetchesTo] using hret
  case popped => exact Vector.getElem_set_self hsp

end Sys2Proof.Machine
end

section
/-! PROOF. Loads and the ALU (R200 to R224): instructions that write one register, and those that write a result and a flag. -/

namespace Sys2Proof.Machine

open Claims

variable {s : State} {i : Instr} {x : RegNum}

/-! ## One register written -/

theorem writesOnly_writeReg (x : RegNum) (b : Byte) (s : State) : WritesOnly x b.toNat s (writeReg x b s) :=
  ⟨by rw [readReg_writeReg_same], fun _ hk => readReg_writeReg_ne s b hk, rfl⟩

theorem exec_writesOnly {b : Byte} (h : Post i s (writeReg x b s)) :
    ∃ t, exec i s = .next t ∧ WritesOnly x b.toNat s t :=
  ⟨_, exec_of_post h, writesOnly_writeReg x b s⟩

/-- Settles O32: each answers the state with V[x] alone written, and its word is the one that encodes it. -/
theorem loadsAndImmediateAdd : Obligations.LoadsAndImmediateAdd := fun x y nn s =>
  ⟨exec_writesOnly rfl, BitVec.toNat_add (readReg s x) nn ▸ exec_writesOnly rfl, exec_writesOnly rfl,
   decodeEncodeRoundTrip (.ldByte x nn), decodeEncodeRoundTrip (.addByte x nn), decodeEncodeRoundTrip (.ldReg x y)⟩

/-- Of two writes to one register the later survives. -/
theorem writeReg_writeReg_same (x : RegNum) (a b : Byte) (s : State) :
    writeReg x b (writeReg x a s) = writeReg x b s := by
  simp [writeReg]

/-- Settles O33: the addition reads the byte just loaded and overwrites it (R203). -/
theorem loadThenAddIsOneLoad : Obligations.LoadThenAddIsOneLoad := by
  intro x a b s t h
  obtain rfl : t = writeReg x a s := exec_post h
  have hsum : BitVec.ofNat 8 ((a.toNat + b.toNat) % 256) = a + b := BitVec.eq_of_toNat_eq (by simp)
  have hadd : writeReg x (a + b) s = writeReg x (readReg (writeReg x a s) x + b) (writeReg x a s) := by
    rw [readReg_writeReg_same, writeReg_writeReg_same]
  rw [hsum, exec_of_post (i := .ldByte x (a + b)) rfl]
  exact exec_of_post hadd

/-- A register written with a byte whose every bit is given by `f` (R208, R210, R212). -/
theorem exec_writesBits {b : Byte} {f : Nat → Bool} (h : Post i s (writeReg x b s)) (hb : ∀ j, b.getLsbD j = f j) :
    ∃ t, exec i s = .next t ∧ WritesOnly x (readReg t x).toNat s t ∧ ∀ j, (readReg t x).getLsbD j = f j := by
  obtain ⟨t, ht, hw⟩ := exec_writesOnly h
  have hx : readReg t x = b := BitVec.eq_of_toNat_eq hw.1
  exact ⟨t, ht, by rwa [hx], by rwa [hx]⟩

/-- Settles O34: the bits of each operation on bytes. -/
theorem logicIsBitwise : Obligations.LogicIsBitwise := fun _ _ _ =>
  ⟨exec_writesBits rfl fun _ => BitVec.getLsbD_or, exec_writesBits rfl fun _ => BitVec.getLsbD_and,
   exec_writesBits rfl fun _ => BitVec.getLsbD_xor⟩

/-! ## The random byte -/

/-- Cxnn with the byte `r` drawn writes `nn` masked by it and counts the draw; nothing else changes (R224). -/
theorem execRndWith_masks (r : Byte) (x : RegNum) (nn : Byte) (s : State) :
    ∃ t, execRndWith r x nn s = .next t ∧ readReg t x = nn &&& r ∧
      (∀ k, k ≠ x → readReg t k = readReg s k) ∧ t = { s with V := t.V, draws := s.draws + 1 } :=
  ⟨_, rfl, readReg_writeReg_same .., fun _ hk => readReg_writeReg_ne _ _ hk, rfl⟩

/-- Settles O38: exec is the instruction on the next free byte, and a bit that is clear in the mask is clear in the result. -/
theorem randomByteIsMasked : Obligations.RandomByteIsMasked := by
  refine fun x nn s => ⟨execRndWith_masks (randomByte s) x nn s, fun r => ?_⟩
  obtain ⟨t, ht, hx, hrest⟩ := execRndWith_masks r x nn s
  exact ⟨t, ht, hx, fun j hj => by simp [hx, hj], hrest⟩

/-! ## A result and a flag written (R204) -/

/-- `commitFlagged` writes its result and its flag, in either order. -/
theorem writesFlagged_commitFlagged (p : Params) (x : RegNum) (res : Byte) (f : Bool) (s : State) :
    WritesFlagged p.vfWriteOrder x res.toNat (flagByte f).toNat s (commitFlagged p x res f s) := by
  refine ⟨fun hx => ⟨?result, ?flag⟩, fun hx => ?later, fun k hkx hkf => ?others, ?frame⟩
  case result => simp [readReg_commitFlagged, hx]
  case flag => simp [readReg_commitFlagged, hx]
  case later => simp [readReg_commitFlagged, hx, apply_ite BitVec.toNat]
  case others => simp [readReg_commitFlagged, hkx, hkf]
  case frame => unfold commitFlagged; cases p.vfWriteOrder <;> rfl

theorem execWith_writesFlagged {p : Params} {res : Byte} {f : Bool} {r n : Nat}
    (h : execWith p i s = .next (commitFlagged p x res f s)) (hr : res.toNat = r) (hf : (flagByte f).toNat = n) :
    ∃ t, execWith p i s = .next t ∧ WritesFlagged p.vfWriteOrder x r n s t :=
  ⟨_, h, hr ▸ hf ▸ writesFlagged_commitFlagged p x res f s⟩

theorem flagByte_decide_toNat (P : Prop) [Decidable P] : (flagByte (decide P)).toNat = if P then 1 else 0 := by
  by_cases h : P <;> simp [flagByte, h]

theorem flagByte_getLsbD_toNat (v : Byte) (j : Nat) : (flagByte (v.getLsbD j)).toNat = v.toNat / 2 ^ j % 2 := by
  rw [← Nat.toNat_testBit]
  change (flagByte (v.toNat.testBit j)).toNat = _
  cases v.toNat.testBit j <;> rfl

section
variable (p : Params) (x y : RegNum) (s : State)

/-! ## Addition and subtraction -/

theorem execWith_addReg_writes :
    ∃ t, execWith p (.addReg x y) s = .next t ∧
      WritesFlagged p.vfWriteOrder x (((readReg s x).toNat + (readReg s y).toNat) % 256)
        (if 255 < (readReg s x).toNat + (readReg s y).toNat then 1 else 0) s t :=
  execWith_writesFlagged rfl (BitVec.toNat_add ..) (flagByte_decide_toNat _)

/-- The difference modulo 256 in the order of R216. -/
theorem byte_sub_toNat (a b : Byte) : (a - b).toNat = (a.toNat + 256 - b.toNat) % 256 := by
  rw [BitVec.toNat_sub']; omega

theorem execWith_subReg_writes :
    ∃ t, execWith p (.subReg x y) s = .next t ∧
      WritesFlagged p.vfWriteOrder x (((readReg s x).toNat + 256 - (readReg s y).toNat) % 256)
        (if (readReg s y).toNat < (readReg s x).toNat then 1 else 0) s t :=
  execWith_writesFlagged rfl (byte_sub_toNat ..) (flagByte_decide_toNat _)

theorem execWith_subnReg_writes :
    ∃ t, execWith p (.subnReg x y) s = .next t ∧
      WritesFlagged p.vfWriteOrder x (((readReg s y).toNat + 256 - (readReg s x).toNat) % 256)
        (if (readReg s x).toNat < (readReg s y).toNat then 1 else 0) s t :=
  execWith_writesFlagged rfl (byte_sub_toNat ..) (flagByte_decide_toNat _)

/-! ## Shifts -/

theorem shiftOperand_toNat : (shiftOperand p x y s).toNat = shiftSourceValue p x y s := by
  unfold shiftOperand shiftSourceValue
  cases p.shiftSource <;> rfl

theorem shiftSourceValue_lt : shiftSourceValue p x y s < 256 :=
  shiftOperand_toNat p x y s ▸ (shiftOperand p x y s).isLt

/-- Half of the source, and its lowest bit shifted out (R218). -/
theorem execWith_shr_writes :
    ∃ t, execWith p (.shr x y) s = .next t ∧
      WritesFlagged p.vfWriteOrder x (shiftSourceValue p x y s / 2) (shiftSourceValue p x y s % 2) s t := by
  refine execWith_writesFlagged rfl ?half ?bit
  case half => rw [BitVec.toNat_ushiftRight, shiftOperand_toNat, Nat.shiftRight_one]
  case bit => rw [shiftedOutRight, flagByte_getLsbD_toNat, shiftOperand_toNat, Nat.pow_zero, Nat.div_one]

/-- The double of the source modulo 256, and its highest bit shifted out (R222). -/
theorem execWith_shl_writes :
    ∃ t, execWith p (.shl x y) s = .next t ∧
      WritesFlagged p.vfWriteOrder x (shiftSourceValue p x y s * 2 % 256) (shiftSourceValue p x y s / 128) s t := by
  have hlt := shiftSourceValue_lt p x y s
  refine execWith_writesFlagged rfl ?double ?bit
  case double => rw [BitVec.toNat_shiftLeft, shiftOperand_toNat, Nat.shiftLeft_eq, Nat.pow_one]
  case bit => rw [shiftedOutLeft, flagByte_getLsbD_toNat, shiftOperand_toNat]; omega

end

/-! ## The statements of the flag-writing instructions -/

/-- Settles O35: the sum and the carry under any parameters, this hardware's among them. -/
theorem addWithCarry : Obligations.AddWithCarry := by
  rintro x y s _ _ rfl rfl
  exact ⟨execWith_addReg_writes params x y s, (execWith_addReg_writes · x y s)⟩

/-- Settles O36: both differences and their strict flags under any parameters, this hardware's among them. -/
theorem subtractWithNoBorrowFlag : Obligations.SubtractWithNoBorrowFlag := by
  rintro x y s _ _ rfl rfl
  exact ⟨execWith_subReg_writes params x y s, execWith_subnReg_writes params x y s,
    fun p => ⟨execWith_subReg_writes p x y s, execWith_subnReg_writes p x y s⟩⟩

/-- Settles O37: both shifts under any parameters, this hardware's, whose source is V[x], among them. -/
theorem shiftsByOne : Obligations.ShiftsByOne := by
  refine fun x y s => ⟨execWith_shr_writes params x y s, execWith_shl_writes params x y s, ?_⟩
  rintro p _ rfl
  exact ⟨execWith_shr_writes p x y s, execWith_shl_writes p x y s⟩

end Sys2Proof.Machine
end

section
/-! PROOF. The index register and memory (R240 to R256): what is loaded into I and added to it, the bytes that Fx33 and
Fx55 store at I and Fx65 loads from there, and the range of I under mask12. -/

namespace Sys2Proof.Machine

open Claims

variable {p : Params} {i : Instr} {x : RegNum} {s t : State}

/-! ## Values of I -/

/-- Five times a byte fits in 16 bits, so that every V[x] has its own I (R246). -/
theorem zext16_mul_five_toNat (v : Byte) : (zext16 v * 5).toNat = v.toNat * 5 := by
  simp [zext16]; omega

@[simp] theorem indexAfterBlock_toNat (x : RegNum) : (indexAfterBlock x).toNat = x.val + 1 := by
  simp [indexAfterBlock]; omega

theorem indexSum_toNat (p : Params) (n : Nat) :
    (indexSum p n).toNat = n % if p.iAddMask = .mask12 then 4096 else 65536 := by
  unfold indexSum
  cases p.iAddMask
  case none => simp
  case mask12 => simp [memSize]; omega

/-- Settles O39: each answers the state with I alone assigned, and its word is the one that encodes it. -/
theorem indexLoads : Obligations.IndexLoads := fun nnn x s =>
  ⟨⟨setI (addrOperand nnn) s, rfl, addrOperand_toNat nnn, rfl⟩,
   ⟨setI (zext16 (readReg s x) * 5) s, rfl, zext16_mul_five_toNat _, rfl⟩,
   decodeEncodeRoundTrip (.ldI nnn), decodeEncodeRoundTrip (.ldFVx x)⟩

/-- Fx1E under any parameters: I is the sum, as wide as the parameter has it, and VF the overflow past 0xFFF (R242). -/
theorem execWith_addIVx_adds (p : Params) (x : RegNum) (s : State) :
    ∃ t, execWith p (.addIVx x) s = .next t ∧
      t.I.toNat = (s.I.toNat + (readReg s x).toNat) % (if p.iAddMask = .mask12 then 4096 else 65536) ∧
      (readReg t 0xF).toNat = (if 0xFFF < s.I.toNat + (readReg s x).toNat then 1 else 0) ∧
      (∀ k, k ≠ 0xF → readReg t k = readReg s k) ∧ t = { s with V := t.V, I := t.I } := by
  refine ⟨_, rfl, indexSum_toNat _ _, ?flag, fun k hk => ?others, rfl⟩
  case flag => rw [readReg_setFlag, if_pos rfl]; exact flagByte_decide_toNat _
  case others => rw [readReg_setFlag, if_neg hk, readReg_setI]

/-- Settles O40: the addition under any parameters, this hardware's, which mask nothing, among them. -/
theorem indexAddDetectsOverflow : Obligations.IndexAddDetectsOverflow := by
  rintro x s _ rfl
  exact ⟨execWith_addIVx_adds params x s, (execWith_addIVx_adds · x s)⟩

/-! ## The data check -/

/-- The check on `k + 1` bytes asks of the last of their addresses what R68 asks of each. -/
theorem inMemory_succ (a k : Nat) : inMemory a (k + 1) = decide (a + k ≤ 0xFFF) := by
  simp [inMemory, memSize]; omega

theorem DataPost.of_le {k : Nat} (h : s.I.toNat + k ≤ 0xFFF) (t : State) : DataPost (k + 1) s t t :=
  .inl ⟨(inMemory_succ _ _).trans (decide_eq_true h), rfl⟩

theorem DataPost.of_lt {k : Nat} (h : 0xFFF < s.I.toNat + k) (t : State) :
    DataPost (k + 1) s t (haltWith .memoryOutOfRange s) :=
  .inr ⟨(inMemory_succ _ _).trans (decide_eq_false (Nat.not_le.mpr h)), rfl⟩

/-! ## Bytes stored at I and loaded from there -/

/-- The digits of R248, by their place in the list. -/
theorem decimalDigits_getD_toNat (v : Byte) :
    ((decimalDigits v).getD 0 0).toNat = v.toNat / 100 ∧ ((decimalDigits v).getD 1 0).toNat = v.toNat / 10 % 10 ∧
      ((decimalDigits v).getD 2 0).toNat = v.toNat % 10 := by
  simp [decimalDigits]

theorem read_storeAtI_at {bs : List Byte} {k : Nat} (hw : s.memory.wf = true) (hI : s.I.toNat + bs.length ≤ 4096)
    (hk : k < bs.length) : (storeAtI bs s).memory.read (s.I.toNat + k) = bs.getD k 0 :=
  Memory.read_writeBytes_at hw hI hk

theorem read_storeAtI_other {bs : List Byte} {a : Nat} (ha : a < s.I.toNat ∨ s.I.toNat + bs.length ≤ a) :
    (storeAtI bs s).memory.read a = s.memory.read a :=
  Memory.read_writeBytes_other _ bs ha

/-- Settles O41: the three bytes are the digits in their order. -/
theorem decimalDigitsStored : Obligations.DecimalDigitsStored := by
  intro x s hw hI
  obtain ⟨hundreds, tens, ones⟩ := decimalDigits_getD_toNat (readReg s x)
  have stored {k : Nat} (hk : k < 3) := read_storeAtI_at (bs := decimalDigits (readReg s x)) hw (by simp; omega) hk
  refine ⟨_, exec_of_post (DataPost.of_le hI _), ?_, ?_, ?_, fun a ha => read_storeAtI_other (by simp; omega), rfl⟩
  · exact (congrArg BitVec.toNat (stored (k := 0) (by decide))).trans hundreds
  · exact (congrArg BitVec.toNat (stored (k := 1) (by decide))).trans tens
  · exact (congrArg BitVec.toNat (stored (k := 2) (by decide))).trans ones

/-- Settles O42: the bytes stored are the registers in their order, and a range past 0xFFF fails the data check. -/
theorem blockStore : Obligations.BlockStore := by
  intro x s hw
  refine ⟨fun hI => ⟨_, exec_of_post (DataPost.of_le hI _), fun k hk => ?stored,
    fun a ha => read_storeAtI_other (by simp; omega), indexAfterBlock_toNat x, rfl⟩,
    fun hI => exec_of_post (DataPost.of_lt hI _)⟩
  have hlt : k.val < (regsUpTo s x).length := by simpa using Nat.lt_succ_of_le hk
  exact (read_storeAtI_at hw (by simp; omega) hlt).trans (regsUpTo_getD s hk)

/-- Settles O43: the registers up to x are loaded, and a range past 0xFFF fails the data check. -/
theorem blockLoad : Obligations.BlockLoad := by
  intro x s
  refine ⟨fun hI => ⟨_, exec_of_post (DataPost.of_le hI _), fun k hk => ?loaded, fun k hk => ?others,
    indexAfterBlock_toNat x, rfl⟩, fun hI => exec_of_post (DataPost.of_lt hI _)⟩
  case loaded => rw [readReg_setI, readReg_loadRegs, if_pos hk]; rfl
  case others => rw [readReg_setI, readReg_loadRegs, if_neg (not_le.mpr hk)]

/-- Settles O44: the load reads the bytes where the store put them. -/
theorem blockLoadInvertsBlockStore : Obligations.BlockLoadInvertsBlockStore := by
  intro x s t u w hw hI hstore hmem huI hload k hk
  obtain ⟨t', ht', hstored, -⟩ := (blockStore x s hw).1 hI
  obtain ⟨w', hw', hloaded, -⟩ := (blockLoad x u).1 (huI ▸ hI)
  obtain rfl : t' = t := Host.Outcome.next.inj (ht'.symm.trans hstore)
  obtain rfl : w' = w := Host.Outcome.next.inj (hw'.symm.trans hload)
  rw [hloaded k hk, hmem, huI, hstored k hk]

/-! ## I under mask12 -/

/-- The inversion of step under any parameters: a halted core stays as it is, a fatal condition changes the status
alone, and any other step counts down the timers of the state that its word left. -/
theorem stepWith_cases (h : stepWith p s = .next t) :
    ((∃ c, s.status = .halted c) ∧ t = s) ∨ (∃ c, t = haltWith c s) ∨
    (∃ u, t = tickTimers u ∧ ((∃ i, FetchesTo s (.instr i) ∧ execWith p i (advancePC s) = .next u) ∨
      (∃ w, FetchesTo s (.unknown w) ∧ u = advancePC s))) := by
  have answer {u : State} (hu : stepWith p s = .next u) : t = u := Host.Outcome.next.inj (h.symm.trans hu)
  by_cases hs : s.status = .running
  case neg =>
    obtain ⟨c, hh⟩ := (status_ne_running_iff _).mp hs
    exact .inl ⟨⟨c, hh⟩, answer (by rw [stepWith, cycleWith_halted hh]; rfl)⟩
  by_cases hr : s.PC.toNat ≤ 4094
  case neg => exact .inr (.inl ⟨_, answer (stepWith_pcOutOfRange hs (by omega))⟩)
  by_cases ha : s.PC.toNat % 2 = 0 ∨ p.oddPcPolicy = .fetch
  case neg =>
    obtain ⟨ho, hp⟩ := not_or.mp ha
    have hfault : p.oddPcPolicy = .fault := by
      cases hq : p.oddPcPolicy with
      | fault => rfl
      | fetch => exact absurd hq hp
    exact .inr (.inl ⟨_, answer (stepWith_pcMisaligned hs hr (by omega) hfault)⟩)
  cases hf : decodeBytes (s.memory.read s.PC.toNat) (s.memory.read (s.PC.toNat + 1)) with
  | unknown w => exact .inr (.inr ⟨_, answer (stepWith_unknown hs hr ha hf), .inr ⟨w, hf, rfl⟩⟩)
  | instr i =>
    obtain ⟨u, hu⟩ := execWith_total p i (advancePC s)
    have ht := answer (stepWith_instr hs hr ha hf hu)
    cases hst : u.status with
    | running => exact .inr (.inr ⟨u, by rw [ht, completeStep_running hst], .inl ⟨i, hf, hu⟩⟩)
    | halted c => exact .inr (.inl ⟨c, by rw [ht, completeStep_halted hst]⟩)

/-- An access behind the data check leaves I in range if both the access and the state before it have it so. -/
theorem DataPost.I_le {len : Nat} {t' : State} (h : DataPost len s t' t) (hI : s.I.toNat ≤ 0xFFF)
    (ht' : t'.I.toNat ≤ 0xFFF) : t.I.toNat ≤ 0xFFF := by
  rcases h with ⟨-, rfl⟩ | ⟨-, rfl⟩
  · exact ht'
  · exact hI

/-- No instruction but Fx1E takes I out of the range of an address (R39, R240, R246, R254). -/
theorem post_I_le (h : Post i s t) (hi : ∀ x, i ≠ .addIVx x) (hI : s.I.toNat ≤ 0xFFF) : t.I.toNat ≤ 0xFFF := by
  cases i with
  | ldI nnn => cases h; simp; omega
  | ldFVx x => cases h; rw [setI_I, zext16_mul_five_toNat]; omega
  | ldMemVx x | ldVxMem x => exact DataPost.I_le h hI (by simp; omega)
  | addIVx x => exact absurd rfl (hi x)
  | _ => rw [(post_frame h).I rfl]; exact hI

/-- Under mask12 Fx1E does not either, so that every instruction keeps I in range. -/
theorem execWith_I_le (hp : p.iAddMask = .mask12) (h : execWith p i s = .next t) (hI : s.I.toNat ≤ 0xFFF) :
    t.I.toNat ≤ 0xFFF := by
  have hexec (he : exec i s = .next t) (hi : ∀ x, i ≠ .addIVx x) := post_I_le (exec_post he) hi hI
  cases i with
  | addIVx x => cases h; simp [indexSum_toNat, hp]; omega
  | addReg | subReg | shr | subnReg | shl => cases h; rwa [commitFlagged_I]
  | drw x y n =>
    obtain ⟨u, hu, hd⟩ := withDataAt_post n.val s _
    obtain rfl : u = t := Host.Outcome.next.inj (hu.symm.trans h)
    exact hd.I_le hI hI
  | _ => exact hexec h nofun

/-- Settles O47: what a step does to I, its word does. -/
theorem maskedIndexStaysInRange : Obligations.MaskedIndexStaysInRange := by
  intro p s t hp hI h
  rcases stepWith_cases h with ⟨-, rfl⟩ | ⟨c, rfl⟩ | ⟨u, rfl, ⟨i, -, hu⟩ | ⟨w, -, rfl⟩⟩
  · exact hI
  · exact hI
  · rw [tickTimers_I]
    exact execWith_I_le hp hu hI
  · exact hI

end Sys2Proof.Machine
end

section
/-! PROOF. Keys and timers (R270 to R280): the key skips, the wait for a key, and the transfers between V[x] and the timers. -/

namespace Sys2Proof.Machine

open Claims

variable {s : State} {x : RegNum}

/-! ## The key skips -/

/-- With V[x] a key, a key skip changes PC alone, on the key's level. -/
theorem KeySkipPost.of_key {k : Fin 16} (hk : (readReg s x).toNat = k.val) (pressed : Bool) :
    KeySkipPost x pressed s { s with PC := if s.keys[k.val] = pressed then s.PC + 2 else s.PC } :=
  .inl ⟨k, hk.symm, by simp [skipIf_eq, keyPressed]⟩

/-- With V[x] above 15 it halts (D9). -/
theorem KeySkipPost.of_lt (h : 15 < (readReg s x).toNat) (pressed : Bool) :
    KeySkipPost x pressed s (haltWith .keyIndexOutOfRange s) :=
  .inr ⟨h, rfl⟩

/-- Settles O48: the skips differ in the level they skip on, and the halt is the same. -/
theorem keySkips : Obligations.KeySkips := by
  refine fun x s => ⟨fun k hk => ⟨exec_of_post (KeySkipPost.of_key hk true), ?sknp⟩,
    fun h => ⟨exec_of_post (KeySkipPost.of_lt h true), exec_of_post (KeySkipPost.of_lt h false)⟩⟩
  case sknp =>
    rw [exec_of_post (i := .sknp x) (KeySkipPost.of_key hk false)]
    cases s.keys[k.val] <;> rfl

/-! ## The wait for a key -/

theorem lowestPressed_eq_some_iff {k : Fin 16} :
    lowestPressed s = some k ↔ s.keys[k.val] = true ∧ ∀ j : Fin 16, j < k → s.keys[j.val] = false := by
  rw [lowestPressed, ← Fin.find?_eq_find?_finRange]
  exact Fin.find?_eq_some_iff

theorem lowestPressed_eq_none_iff : lowestPressed s = none ↔ ∀ k : Fin 16, s.keys[k.val] = false := by
  rw [lowestPressed, ← Fin.find?_eq_find?_finRange]
  exact Fin.find?_eq_none_iff

/-- Going back by 2 undoes the advance of the fetch, so that the waiting instruction leaves the state it was fetched in. -/
theorem setPC_sub_two_advancePC (s : State) : setPC ((advancePC s).PC - 2) (advancePC s) = s := by
  simp [advancePC, setPC]

theorem runsWord_ldVxKey_waits (hf : FetchesTo s (.instr (.ldVxKey x))) (hn : ∀ k : Fin 16, s.keys[k.val] = false) :
    RunsWord s s :=
  .inl ⟨.ldVxKey x, hf, .inr ⟨lowestPressed_eq_none_iff.mpr hn, (setPC_sub_two_advancePC s).symm⟩⟩

/-- Settles O49: the lowest pressed key is written; with none pressed the step counts down the timers of its own state. -/
theorem keyWait : Obligations.KeyWait := by
  refine fun x s => ⟨fun k hk hlow => ?pressed, fun hn => ⟨?waits, fun hc hf => ?step⟩, decodeEncodeRoundTrip (.ldVxKey x)⟩
  case pressed =>
    have hbyte : (BitVec.ofNat 8 k.val).toNat = k.val := by simp; omega
    exact hbyte ▸ exec_writesOnly (.inl ⟨k, lowestPressed_eq_some_iff.mpr ⟨hk, hlow⟩, rfl⟩)
  case waits => exact exec_of_post (.inr ⟨lowestPressed_eq_none_iff.mpr hn, rfl⟩)
  case step => exact ⟨_, (step_runsWord hc (runsWord_ldVxKey_waits hf hn) hc.1).1, ticked_tickTimers s⟩

/-! ## The timers -/

/-- Settles O50: each answers the state that its one write leaves. -/
theorem timerReadsAndWrites : Obligations.TimerReadsAndWrites := fun _ _ =>
  ⟨exec_writesOnly rfl, exec_of_post rfl, exec_of_post rfl⟩

end Sys2Proof.Machine
end

section
/-! PROOF. Which instructions halt the core, and the step at an unknown word (R301, R306, R307). -/

namespace Sys2Proof.Machine

open Claims

/-- Settles O11: `post_fatalCause` for the state that exec answers. -/
theorem instructionsHaltExactlyOnTheirCause : Obligations.InstructionsHaltExactlyOnTheirCause := by
  intro i s hs
  obtain ⟨t, ht, hp⟩ := exec_total i s
  rcases post_fatalCause hp with ⟨hnone, hst⟩ | ⟨c, hsome, rfl⟩
  · exact ⟨t, ht, by simp [hnone], fun _ => hst.trans hs⟩
  · refine ⟨haltWith c s, ht, fun c' hc => ?_, by simp [hsome]⟩
    obtain rfl : c = c' := Option.some.inj (hsome.symm.trans hc)
    rfl

/-- The decoder rejects a word by its own name (R103): a word that some row selects it does not reject. -/
theorem eq_of_decode_unknown {v w : Word} (h : decode w = .unknown v) : v = w := by
  have hnone : ∀ r ∈ opcodeRows, r.selects w = false := by
    refine fun r hr => Bool.eq_false_iff.mpr fun hsel => ?_
    simp [decode_of_selects r hr hsel] at h
  exact Decoded.unknown.inj (h.symm.trans (decode_of_not_selects hnone))

/-- An unknown word that is fetched is the two bytes at PC, the first the high byte (R64, R121). -/
theorem unknown_word_toNat {s : State} {w : Word} (hf : FetchesTo s (.unknown w)) :
    w.toNat = (s.memory.read s.PC.toNat).toNat * 256 + (s.memory.read (s.PC.toNat + 1)).toNat := by
  rw [eq_of_decode_unknown hf, wordOfBytes_toNat]

/-- Settles O7: the cycle moves PC past the word, which leaves the core running, and signals it. -/
theorem unknownOpcodeIsNotTerminal : Obligations.UnknownOpcodeIsNotTerminal := by
  intro s w hc hf
  have hs : (advancePC s).status = .running := hc.1
  have hcycle := cycle_unknown hc hf
  rw [completeStep_running hs] at hcycle
  exact ⟨_, step_of_cycle hcycle, ticked_tickTimers _, hs, by rw [signals_of_cycle hcycle], unknown_word_toNat hf⟩

end Sys2Proof.Machine
end

section
/-! PROOF. The host's ports (R320 to R326, R348, R350): what each call answers, and that it keeps the invariant. -/

namespace Sys2Proof.Machine

variable {b : Bool} {c : PortCall} {r : PortReply} {ses ses' : Session} {s t : State}

/-! ## What a call answers -/

/-- Settles O57: each port's answer is the one its definition gives. -/
theorem readPorts : Obligations.ReadPorts := fun _ _ => ⟨rfl, rfl, rfl⟩

theorem callPort_setKey_of_lt {k : Nat} (hk : k < 16) (pressed : Bool) :
    callPort (.setKey k pressed) (.initialized b s) = .next (.initialized b (setKey ⟨k, hk⟩ pressed s), .done) :=
  dif_pos hk

theorem callPort_setKey_of_le {k : Nat} (hk : 16 ≤ k) (pressed : Bool) :
    callPort (.setKey k pressed) (.initialized b s) = .refused .noSuchKey :=
  dif_neg (Nat.not_lt.mpr hk)

/-- Settles O59: the level that is set reads as passed, and the others as before. -/
theorem setKeySetsOneLevel : Obligations.SetKeySetsOneLevel := by
  refine fun b pressed s k => ⟨fun hk => ⟨_, callPort_setKey_of_lt hk pressed, ?level, fun j hj => ?others, rfl⟩,
    fun hk => callPort_setKey_of_le hk pressed⟩
  case level => exact Vector.getElem_set_self hk
  case others => exact Vector.getElem_set_ne hk j.isLt (Ne.symm hj)

theorem callPort_beforeInitialize (hc : c ≠ .init) : callPort c .beforeInitialize = .refused .beforeInitialize := by
  cases c with
  | init => exact absurd rfl hc
  | _ => rfl

theorem callPort_loadProgram_halted {image : Image} {cause : Cause} (hs : s.status = .halted cause) :
    callPort (.loadProgram image) (.initialized false s) = .refused .loadWhileHalted := by
  simp [callPort, callInitialized, loadReply, hs]

/-- A cycle answers the state of its step with the signals. -/
theorem cycle_of_step (h : step s = .next t) : cycle s = .next (t, signals s) := by
  cases hc : cycle s with
  | next q =>
    obtain rfl : q.1 = t := Host.Outcome.next.inj ((step_of_cycle hc).symm.trans h)
    rw [signals_of_cycle hc]
  | fault f => nomatch f
  | refused e => simp [step, stateOf, hc] at h

/-- The step port answers `step` with its signals and ends the loading phase, in any status (R348). -/
theorem callPort_step (h : step s = .next t) :
    callPort .step (.initialized b s) = .next (.initialized true t, .stepped (signals s)) :=
  congrArg stepReply (cycle_of_step h)

/-- Settles O60: every step completes, so the step port refuses none. -/
theorem lifecycleRefusals : Obligations.LifecycleRefusals := by
  refine ⟨fun _ => callPort_beforeInitialize, fun _ _ => rfl, fun _ _ _ => callPort_loadProgram_halted, ?step⟩
  intro b s
  obtain ⟨t, ht, -⟩ := everyStepCompletes s
  exact ⟨t, ht, callPort_step ht⟩

/-! ## Every port keeps the invariant -/

/-- The invariant speaks of the memory, PC and the call stack alone. -/
theorem Legal.of_eq (h : Legal s) (hm : t.memory = s.memory) (hpc : t.PC = s.PC) (hst : t.stack = s.stack) : Legal t :=
  ⟨hm ▸ h.memory_wf, hpc ▸ h.pc_bound, hst ▸ h.stack_even, hst ▸ h.stack_bound⟩

/-- An image that is loaded fits in memory, and one that is not changes none of it (R346, R347). -/
theorem legal_loadProgram (image : Image) (h : Legal s) : Legal (loadProgram image s).2 := by
  cases image with
  | readFailure => exact legal_haltWith .ioFailure h
  | bytes bs =>
    simp only [loadProgram]
    split
    · exact legal_haltWith .capacityExceeded h
    · rename_i hlen
      have hfit : programOrigin + bs.length ≤ 4096 := by
        simp only [imageCapacity, memSize, programOrigin] at hlen ⊢
        omega
      exact ⟨Memory.writeBytes_wf h.memory_wf hfit, h.pc_bound, h.stack_even, h.stack_bound⟩

theorem callInitialized_legal (h : Legal s) (hc : callInitialized b s c = .next (ses, r)) : LegalSession ses := by
  cases c with
  | init => cases hc; exact resetIsLegal.of_eq rfl rfl rfl
  | loadProgram image =>
    simp only [callInitialized, loadReply] at hc
    split_ifs at hc
    cases hc
    exact legal_loadProgram image h
  | step =>
    obtain ⟨t, ht, -⟩ := everyStepCompletes s
    cases (callPort_step (b := b) ht).symm.trans hc
    exact stepKeepsLegal s t h ht
  | setKey k pressed =>
    simp only [callInitialized] at hc
    split_ifs at hc
    cases hc
    exact h.of_eq rfl rfl rfl
  | consumeDrawFlag | framebuffer | status => cases hc; exact h.of_eq rfl rfl rfl

/-- A port call that is not refused keeps the session legal; the first `init` makes it so. -/
theorem callPort_legal (h : LegalSession ses) (hc : callPort c ses = .next (ses', r)) : LegalSession ses' := by
  cases ses with
  | initialized b s => exact callInitialized_legal h hc
  | beforeInitialize =>
    cases c with
    | init => cases hc; exact resetIsLegal
    | _ => cases hc

/-- A sequence that is not refused is its first call and a sequence from the session after it. -/
theorem callPorts_cons {cs : List PortCall} {rs : List PortReply} (h : callPorts (c :: cs) ses = .next (ses', rs)) :
    ∃ mid r rs', callPort c ses = .next (mid, r) ∧ callPorts cs mid = .next (ses', rs') ∧ rs = r :: rs' := by
  simp only [callPorts] at h
  split at h
  · rename_i mid r hc
    split at h
    · rename_i last rs' hcs
      cases h
      exact ⟨mid, r, rs', hc, hcs, rfl⟩
    all_goals cases h
  all_goals cases h

theorem callPorts_legal {cs : List PortCall} {rs : List PortReply} (h : LegalSession ses)
    (hc : callPorts cs ses = .next (ses', rs)) : LegalSession ses' := by
  induction cs generalizing ses rs with
  | nil => cases hc; exact h
  | cons c cs ih =>
    obtain ⟨mid, r, rs', hfirst, hrest, -⟩ := callPorts_cons hc
    exact ih (callPort_legal h hfirst) hrest

/-- Settles O15: the session `beforeInitialize` is legal, and every call keeps it so. -/
theorem everyReachedSessionIsLegal : Obligations.EveryReachedSessionIsLegal :=
  fun _ _ _ h => callPorts_legal (ses := .beforeInitialize) trivial h

end Sys2Proof.Machine
end

section
/-! PROOF. initialize and loadProgram (R340 to R347): the reset contents under any FONT, and what a load stores or halts with. -/

namespace Sys2Proof.Machine

variable {bs : List Byte} {s : State}

/-! ## initialize -/

/-- The reset contents above the font (R52). -/
theorem unlisted_of_le {a : Nat} (ha : 80 ≤ a) : unlisted a = 0 :=
  List.getD_eq_default fontBytes 0 ha

/-- initialize answers the reset state from any session; only the model's own count of draws goes on (R340, R342). -/
theorem callPort_init (ses : Session) :
    ∃ n, callPort .init ses = .next (.initialized false { State.reset with draws := n }, .done) := by
  cases ses with
  | beforeInitialize => exact ⟨0, rfl⟩
  | initialized _ s => exact ⟨s.draws, rfl⟩

/-- Settles O54: every field but the count of draws is that of `State.reset`, whose memory lists no cell. -/
theorem initializeResetsEverything : Obligations.InitializeResetsEverything := by
  intro ses
  obtain ⟨n, hinit⟩ := callPort_init ses
  have hreg (k : RegNum) : readReg State.reset k = 0 := Vector.getElem_replicate k.isLt
  have hslot (k : Fin 16) : State.reset.stack[k.val] = 0 ∧ State.reset.keys[k.val] = false :=
    ⟨Vector.getElem_replicate k.isLt, Vector.getElem_replicate k.isLt⟩
  exact ⟨_, hinit, fun _ _ => rfl, fun _ => unlisted_of_le, Memory.reset_wf, hreg, hslot, rfl, rfl, rfl, rfl,
    pixel_blankFb, rfl, rfl, rfl⟩

/-- Settles O55: the font is written at 0 over the reset contents, which are 0 from its end on. -/
theorem resetHoldsAnyFont : Obligations.ResetHoldsAnyFont := by
  intro font hlen
  have hfit : 0 + font.length ≤ 4096 := by omega
  refine ⟨Memory.writeBytes_wf Memory.reset_wf hfit, fun a ha => ?font, fun a ha => ?zero, rfl⟩
  case font =>
    have hat := Memory.read_writeBytes_at Memory.reset_wf hfit (ha.trans_eq hlen.symm)
    rwa [Nat.zero_add] at hat
  case zero => exact (Memory.read_writeBytes_other [] font (.inr (by omega))).trans (unlisted_of_le ha)

/-! ## loadProgram -/

/-- On a running core before its first step the port answers what `loadProgram` does (R348). -/
theorem callPort_loadProgram_running (image : Image) (hs : s.status = .running) :
    callPort (.loadProgram image) (.initialized false s) =
      .next (.initialized false (loadProgram image s).2, .loaded (loadProgram image s).1) :=
  if_pos hs

theorem loadProgram_of_le (h : bs.length ≤ 3584) :
    loadProgram (.bytes bs) s = (.ok, setMemory (s.memory.writeBytes 0x200 bs) s) :=
  if_neg (Nat.not_lt.mpr h)

theorem loadProgram_of_lt (h : 3584 < bs.length) :
    loadProgram (.bytes bs) s = (.capacityExceeded, haltWith .capacityExceeded s) :=
  if_pos h

/-- Settles O56: an image that fits ends at most at 0xFFF, so that what is stored reads back; the two failures halt. -/
theorem loadProgramStoresOrHalts : Obligations.LoadProgramStoresOrHalts := by
  intro s hw hs
  refine ⟨fun bs hlen => ?stores, fun bs hlen => ?tooLong, callPort_loadProgram_running .readFailure hs⟩
  case stores =>
    have hfit : 0x200 + bs.length ≤ 4096 := by omega
    refine ⟨setMemory (s.memory.writeBytes 0x200 bs) s, ?_, fun k hk => ?_,
      fun a ha => Memory.read_writeBytes_other s.memory bs ha, rfl, Memory.writeBytes_wf hw hfit⟩
    · rw [callPort_loadProgram_running _ hs, loadProgram_of_le hlen]
    · exact (Memory.read_writeBytes_at hw hfit hk).trans (List.getD_eq_getElem bs 0 hk)
  case tooLong =>
    rw [callPort_loadProgram_running _ hs, loadProgram_of_lt hlen]
    rfl

end Sys2Proof.Machine
end
